-- ==== Sys2Proof/Word.lean ====
section
/-! DEFINITION. The bit-vector types of the codec's two words and their fields
(spec/00_scope.md R7, spec/30_encoding.md R80, R84; widths D7 of spec/92_eei_decisions.md). -/

namespace Sys2Proof

/-- `u8`: a chip register, a one-byte operand, a one-byte result. -/
abbrev Byte := BitVec 8

/-- `u16`: the year and yearday fields of the two words. -/
abbrev Half := BitVec 16

/-- A command or response word, bits 95 (most significant) down to 0 (R6, R80, R84). -/
abbrev Word := BitVec 96

end Sys2Proof
end

