-- ==== Sys2Proof/Config.lean ====
section
/-! DEFINITION. What one build of the codec fixes (spec/00_scope.md R5) and the values the spec leaves free
(R15 and spec/93_implementation_defined.md): the free values are opaque constants, so no proof can see one. -/

namespace Sys2Proof

/-- The chip's seven time registers, offsets 0 to 6 in this order (R30 to R37): what a T1 read returns and
what a T2 write carries. -/
structure TimeRegs where
  seconds : Byte
  minutes : Byte
  hours   : Byte
  weekday : Byte
  day     : Byte
  month   : Byte
  year    : Byte
  deriving DecidableEq, Repr, Inhabited

/-- One choice of the bus agent for one transaction (R50, R53, R311).
`success regs`: the transaction succeeds, and if it is a read, it finds `regs` at offsets 0 to 6 (so a reply
can only have the length asked for, R55); a write takes nothing from `regs`.
`failure e`: it fails with the code `e`. `silence`: the bus never answers. -/
inductive BusAnswer where
  | success (regs : TimeRegs)
  | failure (e : Byte)
  | silence
  deriving DecidableEq, Repr, Inhabited

namespace Config

/-- `ADDR` when the construction gives none (R5, R23, R293). -/
def addrDefault : BitVec 7 := 0x68

/-- `WS_RESET` (R291). DESIGN CHOICE, unsafe, log entry 7: the spec leaves it open and recommends 0. -/
def wsReset : BitVec 3 := 0

/-- `HALT_RESET` (R292). DESIGN CHOICE, unsafe, log entry 8: the spec leaves it open and recommends 0. -/
def haltReset : Bool := false

/-- `any_u8` (R11, R15): the byte drawn at draw number `k`. Free, log entry 10. -/
opaque anyU8 : Nat → Byte

/-- `any_u16` (R11, R15): the 16-bit value drawn at draw number `k`. Free, log entry 10. -/
opaque anyU16 : Nat → Half

/-- The bus agent's choice for a transaction that the state's list of answers does not fix, drawn at draw
number `k` (R53, U6, U9, U10). Free, log entry 3. -/
opaque busAnswer : Nat → BusAnswer

end Config

end Sys2Proof
end

