-- ==== Sys2Proof/Syntax.lean ====
section
/-! DEFINITION. The 23 commands of spec/30_encoding.md R90, one constructor per row of spec/opcode_table.json.
Each operand has exactly the width its field has (R82), so an operand that does not fit cannot be built. -/

namespace Sys2Proof

/-- A command with its operands, in format order (R81). -/
inductive Instr where
  /-- Read the full datetime (R111). -/
  | getdt
  /-- Write the full datetime (R112); `yearday` is carried and ignored. -/
  | setdt (year : Half) (month day hour minute second weekday : Byte) (yearday : Half)
  /-- The projections (R114 to R122). -/
  | getyear
  | getmonth
  | getday
  | gethour
  | getmin
  | getsec
  | getwday
  | getyday
  /-- Read and set the weekday-start offset (R143, R141). -/
  | getws
  | setws (a : Byte)
  /-- The weekday adder and subtractor on operands (R144, R145). -/
  | wdenc (a b : Byte)
  | wddec (a b : Byte)
  /-- The BCD encoder and decoder on an operand (R162, R163). -/
  | d2b (a : Byte)
  | b2d (a : Byte)
  /-- The leap-year calculator and the day-of-year accumulator on operands (R183, R184). -/
  | isleap (year : Half)
  | doy (year : Half) (month day : Byte)
  /-- Read the cached halt flag, set the chip's (R204, R205). -/
  | gethalt
  | sethalt (a : Byte)
  /-- Configure the square wave, pack and unpack its control byte (R222, R223, R225). -/
  | sqw (a b : Byte)
  | ctlpk (a b : Byte)
  | ctlupk (a : Byte)
  deriving DecidableEq, Repr

end Sys2Proof
end

