-- ==== Sys2Proof/WellFormed.lean ====
section
/-! DEFINITION. Mnemonics, command and response formats, and the check a written command line passes: the right
number of operands, each inside its field (spec/30_encoding.md R81, R82, R85, R90, R100, R102).
An `Instr` holds its operands at their field's width, so an ill-formed one cannot be written; an assembler line
holds plain numbers, and the check refuses those that do not fit. -/

namespace Sys2Proof

/-- The 23 mnemonics (R90). -/
inductive Mnemonic where
  | getdt | setdt | getyear | getmonth | getday | gethour | getmin | getsec | getwday | getyday
  | getws | setws | wdenc | wddec | d2b | b2d | isleap | doy | gethalt | sethalt | sqw | ctlpk | ctlupk
  deriving DecidableEq, Repr

/-- The six command formats (R81). -/
inductive Format where
  | N | B | BB | Y | YMD | DT
  deriving DecidableEq, Repr

/-- The five `OK` response formats (R85). -/
inductive ResponseFormat where
  | RN | RB | RW | RDT | RC
  deriving DecidableEq, Repr

/-- The row of R90 a command belongs to. -/
def Instr.mnemonic : Instr → Mnemonic
  | .getdt => .getdt
  | .setdt .. => .setdt
  | .getyear => .getyear
  | .getmonth => .getmonth
  | .getday => .getday
  | .gethour => .gethour
  | .getmin => .getmin
  | .getsec => .getsec
  | .getwday => .getwday
  | .getyday => .getyday
  | .getws => .getws
  | .setws .. => .setws
  | .wdenc .. => .wdenc
  | .wddec .. => .wddec
  | .d2b .. => .d2b
  | .b2d .. => .b2d
  | .isleap .. => .isleap
  | .doy .. => .doy
  | .gethalt => .gethalt
  | .sethalt .. => .sethalt
  | .sqw .. => .sqw
  | .ctlpk .. => .ctlpk
  | .ctlupk .. => .ctlupk

/-- Column "format" of R90. -/
def Mnemonic.format : Mnemonic → Format
  | .getdt | .getyear | .getmonth | .getday | .gethour | .getmin | .getsec | .getwday | .getyday => .N
  | .setdt => .DT
  | .getws | .gethalt => .N
  | .setws | .d2b | .b2d | .sethalt | .ctlupk => .B
  | .wdenc | .wddec | .sqw | .ctlpk => .BB
  | .isleap => .Y
  | .doy => .YMD

/-- Column "response" of R90. -/
def Mnemonic.responseFormat : Mnemonic → ResponseFormat
  | .getdt => .RDT
  | .setdt | .setws | .sethalt | .sqw => .RN
  | .getyear | .getyday | .doy => .RW
  | .getmonth | .getday | .gethour | .getmin | .getsec | .getwday => .RB
  | .getws | .wdenc | .wddec | .d2b | .b2d | .isleap | .gethalt | .ctlpk => .RB
  | .ctlupk => .RC

/-- The operand widths of a format, in order (R81, R82). -/
def Format.operandWidths : Format → List Nat
  | .N => []
  | .B => [8]
  | .BB => [8, 8]
  | .Y => [16]
  | .YMD => [16, 8, 8]
  | .DT => [16, 8, 8, 8, 8, 8, 8, 16]

/-- What an assembler line begins with: a mnemonic, or one of the four pseudo-instructions (R100, R102). -/
inductive Head where
  | command (m : Mnemonic)
  | halt
  | run
  | sqwoff
  | setdt7
  deriving DecidableEq, Repr

/-- A command as it is written: a head and its operand numbers in order (R100). -/
structure Line where
  head     : Head
  operands : List Nat
  deriving DecidableEq, Repr

/-- The operand widths a head asks for (R81, R102). -/
def Head.operandWidths : Head → List Nat
  | .command m => m.format.operandWidths
  | .halt => []
  | .run => []
  | .sqwoff => [8]
  | .setdt7 => [16, 8, 8, 8, 8, 8, 8]

/-- As many numbers as widths, each below two to its width. -/
def operandsFit : List Nat → List Nat → Bool
  | [], [] => true
  | w :: ws, n :: ns => decide (n < 2 ^ w) && operandsFit ws ns
  | _, _ => false

/-- A line may be assembled: it has its head's number of operands and each fits its field. -/
def Line.wellFormed (l : Line) : Bool := operandsFit l.head.operandWidths l.operands

/-- The line that writes a command out (R100). -/
def Instr.line (i : Instr) : Line :=
  ⟨.command i.mnemonic, match i with
    | .setdt y mo d h mi s wd yd =>
      [y.toNat, mo.toNat, d.toNat, h.toNat, mi.toNat, s.toNat, wd.toNat, yd.toNat]
    | .setws a | .d2b a | .b2d a | .sethalt a | .ctlupk a => [a.toNat]
    | .wdenc a b | .wddec a b | .sqw a b | .ctlpk a b => [a.toNat, b.toNat]
    | .isleap y => [y.toNat]
    | .doy y m d => [y.toNat, m.toNat, d.toNat]
    | .getdt | .getyear | .getmonth | .getday | .gethour | .getmin | .getsec | .getwday | .getyday
    | .getws | .gethalt => []⟩

/-- A command is well formed when its line is. -/
def Instr.wellFormed (i : Instr) : Bool := i.line.wellFormed

end Sys2Proof
end

