-- ==== Sys2Proof/Decode.lean ====
section
/-! DEFINITION. The decoder (spec/30_encoding.md R80 to R83, R90, R91), the encoder written from the same tables
(R80 to R82, R90), and the assembler of written lines with the pseudo-instructions (R100, R102). -/

namespace Sys2Proof

/-- Why a word is no command (R91). -/
inductive Illegal where
  /-- Byte 0 is none of the 23 opcodes. -/
  | unknownOpcode (op : Byte)
  /-- The opcode is known and a bit its format marks zero is 1 (R83). -/
  | reservedBits (op : Byte)
  deriving DecidableEq, Repr

/-- The byte 0 that an illegal word had. -/
def Illegal.opcode : Illegal → Byte
  | .unknownOpcode op => op
  | .reservedBits op => op

/-- Column "opcode" of R90. -/
def opcodeOf : Mnemonic → Byte
  | .getdt => 0x10
  | .setdt => 0x11
  | .getyear => 0x12
  | .getmonth => 0x13
  | .getday => 0x14
  | .gethour => 0x15
  | .getmin => 0x16
  | .getsec => 0x17
  | .getwday => 0x18
  | .getyday => 0x19
  | .getws => 0x20
  | .setws => 0x21
  | .wdenc => 0x22
  | .wddec => 0x23
  | .d2b => 0x30
  | .b2d => 0x31
  | .isleap => 0x40
  | .doy => 0x41
  | .gethalt => 0x50
  | .sethalt => 0x51
  | .sqw => 0x60
  | .ctlpk => 0x61
  | .ctlupk => 0x62

/-- The row of R90 an opcode byte names, if it names one. -/
def mnemonicOf (op : Byte) : Option Mnemonic :=
  match op.toNat with
  | 0x10 => some .getdt
  | 0x11 => some .setdt
  | 0x12 => some .getyear
  | 0x13 => some .getmonth
  | 0x14 => some .getday
  | 0x15 => some .gethour
  | 0x16 => some .getmin
  | 0x17 => some .getsec
  | 0x18 => some .getwday
  | 0x19 => some .getyday
  | 0x20 => some .getws
  | 0x21 => some .setws
  | 0x22 => some .wdenc
  | 0x23 => some .wddec
  | 0x30 => some .d2b
  | 0x31 => some .b2d
  | 0x40 => some .isleap
  | 0x41 => some .doy
  | 0x50 => some .gethalt
  | 0x51 => some .sethalt
  | 0x60 => some .sqw
  | 0x61 => some .ctlpk
  | 0x62 => some .ctlupk
  | _ => none

/-- Byte 0, `C[95:88]` (R80). -/
def wordOpcode (w : Word) : Byte := w.extractLsb' 88 8
/-- `a` of formats B and BB, `C[87:80]` (R81). -/
def fieldA (w : Word) : Byte := w.extractLsb' 80 8
/-- `b` of format BB, `C[79:72]` (R81). -/
def fieldB (w : Word) : Byte := w.extractLsb' 72 8
/-- `year`, `C[87:72]` (R81). -/
def fieldYear (w : Word) : Half := w.extractLsb' 72 16
/-- `month`, `C[71:64]` (R81). -/
def fieldMonth (w : Word) : Byte := w.extractLsb' 64 8
/-- `day`, `C[63:56]` (R81). -/
def fieldDay (w : Word) : Byte := w.extractLsb' 56 8
/-- `hour`, `C[55:48]` (R81). -/
def fieldHour (w : Word) : Byte := w.extractLsb' 48 8
/-- `minute`, `C[47:40]` (R81). -/
def fieldMinute (w : Word) : Byte := w.extractLsb' 40 8
/-- `second`, `C[39:32]` (R81). -/
def fieldSecond (w : Word) : Byte := w.extractLsb' 32 8
/-- `weekday`, `C[31:24]` (R81). -/
def fieldWeekday (w : Word) : Byte := w.extractLsb' 24 8
/-- `yearday`, `C[23:8]` (R81). -/
def fieldYearday (w : Word) : Half := w.extractLsb' 8 16

/-- How many bits, from bit 0 up, a format marks zero (R81): its operands stand without a gap below the opcode. -/
def reservedWidth : Format → Nat
  | .N => 88
  | .B => 80
  | .BB => 72
  | .Y => 72
  | .YMD => 56
  | .DT => 8

/-- Every bit the format marks zero is 0 (R83). -/
def reservedClear (f : Format) (w : Word) : Bool := w.extractLsb' 0 (reservedWidth f) == 0

/-- The command of a row with its operands cut out of the word (R81, R82). -/
def instrOf (m : Mnemonic) (w : Word) : Instr :=
  match m with
  | .getdt => .getdt
  | .setdt => .setdt (fieldYear w) (fieldMonth w) (fieldDay w) (fieldHour w) (fieldMinute w) (fieldSecond w)
      (fieldWeekday w) (fieldYearday w)
  | .getyear => .getyear
  | .getmonth => .getmonth
  | .getday => .getday
  | .gethour => .gethour
  | .getmin => .getmin
  | .getsec => .getsec
  | .getwday => .getwday
  | .getyday => .getyday
  | .getws => .getws
  | .setws => .setws (fieldA w)
  | .wdenc => .wdenc (fieldA w) (fieldB w)
  | .wddec => .wddec (fieldA w) (fieldB w)
  | .d2b => .d2b (fieldA w)
  | .b2d => .b2d (fieldA w)
  | .isleap => .isleap (fieldYear w)
  | .doy => .doy (fieldYear w) (fieldMonth w) (fieldDay w)
  | .gethalt => .gethalt
  | .sethalt => .sethalt (fieldA w)
  | .sqw => .sqw (fieldA w) (fieldB w)
  | .ctlpk => .ctlpk (fieldA w) (fieldB w)
  | .ctlupk => .ctlupk (fieldA w)

/-- The decoder: every word is a command or illegal for a named reason (R91, R93). -/
def decode (w : Word) : Except Illegal Instr :=
  match mnemonicOf (wordOpcode w) with
  | none => .error (.unknownOpcode (wordOpcode w))
  | some m =>
    if reservedClear m.format w then .ok (instrOf m w) else .error (.reservedBits (wordOpcode w))

/-- Bytes 1 to 11 of a command's word, byte 1 first (R81). -/
def operandBits : Instr → BitVec 88
  | .setdt y mo d h mi s wd yd => y ++ mo ++ d ++ h ++ mi ++ s ++ wd ++ yd ++ 0#8
  | .setws a | .d2b a | .b2d a | .sethalt a | .ctlupk a => a ++ 0#80
  | .wdenc a b | .wddec a b | .sqw a b | .ctlpk a b => a ++ b ++ 0#72
  | .isleap y => y ++ 0#72
  | .doy y m d => y ++ m ++ d ++ 0#56
  | .getdt | .getyear | .getmonth | .getday | .gethour | .getmin | .getsec | .getwday | .getyday
  | .getws | .gethalt => 0#88

/-- The word of a command (R80, R81, R90). -/
def encode (i : Instr) : Word := opcodeOf i.mnemonic ++ operandBits i

/-- The command a word of the opcode table stands for. The table numbers a word's bits as R80 does (its
`match` values hold the opcode in bits 95 to 88), so the number is the word; `nbits` is 96 in every row. -/
def decodeTableWord (_nbits w : Nat) : Option Instr :=
  if w < 2 ^ 96 then
    match decode (BitVec.ofNat 96 w) with
    | .ok i => some i
    | .error _ => none
  else none

/-- A pseudo-instruction's expansion; a command stands for itself (R102). -/
def expandLine (l : Line) : Mnemonic × List Nat :=
  match l.head with
  | .command m => (m, l.operands)
  | .halt => (.sethalt, [1])
  | .run => (.sethalt, [0])
  | .sqwoff => (.sqw, 0 :: l.operands)
  | .setdt7 => (.setdt, l.operands ++ [0])

/-- The command a mnemonic and its operand numbers make, `none` for a wrong number of operands (R100). -/
def buildInstr : Mnemonic → List Nat → Option Instr
  | .getdt, [] => some .getdt
  | .setdt, [y, mo, d, h, mi, s, wd, yd] =>
    some (.setdt (.ofNat 16 y) (.ofNat 8 mo) (.ofNat 8 d) (.ofNat 8 h) (.ofNat 8 mi) (.ofNat 8 s)
      (.ofNat 8 wd) (.ofNat 16 yd))
  | .getyear, [] => some .getyear
  | .getmonth, [] => some .getmonth
  | .getday, [] => some .getday
  | .gethour, [] => some .gethour
  | .getmin, [] => some .getmin
  | .getsec, [] => some .getsec
  | .getwday, [] => some .getwday
  | .getyday, [] => some .getyday
  | .getws, [] => some .getws
  | .setws, [a] => some (.setws (.ofNat 8 a))
  | .wdenc, [a, b] => some (.wdenc (.ofNat 8 a) (.ofNat 8 b))
  | .wddec, [a, b] => some (.wddec (.ofNat 8 a) (.ofNat 8 b))
  | .d2b, [a] => some (.d2b (.ofNat 8 a))
  | .b2d, [a] => some (.b2d (.ofNat 8 a))
  | .isleap, [y] => some (.isleap (.ofNat 16 y))
  | .doy, [y, m, d] => some (.doy (.ofNat 16 y) (.ofNat 8 m) (.ofNat 8 d))
  | .gethalt, [] => some .gethalt
  | .sethalt, [a] => some (.sethalt (.ofNat 8 a))
  | .sqw, [a, b] => some (.sqw (.ofNat 8 a) (.ofNat 8 b))
  | .ctlpk, [a, b] => some (.ctlpk (.ofNat 8 a) (.ofNat 8 b))
  | .ctlupk, [a] => some (.ctlupk (.ofNat 8 a))
  | _, _ => none

/-- The command a well-formed line stands for; an ill-formed line stands for none. -/
def assemble (l : Line) : Option Instr :=
  if l.wellFormed then buildInstr (expandLine l).1 (expandLine l).2 else none

end Sys2Proof
end

