-- ==== Sys2Proof/Machine/State.lean ====
section
/-! DEFINITION. The state of the machine: the codec's own state (spec/10_state.md R22 to R26), the two agents it
works between, host and bus, as plain data (R14, R50, R53, R69, R80, R84, R271), the values its words carry
(R85, R110), and reset (spec/70_reset_and_hazards.md R290 to R294). -/

namespace Sys2Proof.Machine

/-- The two bus primitives (R50). -/
inductive Dir where
  | read
  | write
  deriving DecidableEq, Repr

/-- How a transaction ended: it succeeded, it failed with the bus's code, or the bus never answered (R50, R311). -/
inductive BusOutcome where
  | ok
  | failed (e : Byte)
  | unanswered
  deriving DecidableEq, Repr

/-- One bus transaction as R69 records it: the primitive, the device address it carried, its register offset and
length (R50), the bytes written or returned (none for a read that did not succeed), and how it ended. -/
structure BusEvent where
  dir     : Dir
  device  : BitVec 7
  offset  : Byte
  length  : Byte
  bytes   : List Byte
  outcome : BusOutcome
  deriving DecidableEq, Repr

/-- The eight-field value of R110, at the widths of the RDT response (R85, D7). -/
structure DateTime where
  year    : Half
  month   : Byte
  day     : Byte
  hour    : Byte
  minute  : Byte
  second  : Byte
  weekday : Byte
  yearday : Half
  deriving DecidableEq, Repr

/-- The four outputs of the control-byte unpacker (R224), at the widths of the RC response (R85). -/
structure Control where
  level  : Byte
  enable : Byte
  rs     : Byte
  rate   : Byte
  deriving DecidableEq, Repr

/-- The two causes of `InvalidArgument` (R251). -/
inductive BadArgument where
  | weekdayStart
  | squareWaveRate
  deriving DecidableEq, Repr

/-- The three ways a command ends other than `OK` (R250). -/
inductive ErrorKind where
  | invalidArgument (cause : BadArgument)
  | busError (e : Byte)
  | illegalCommand (op : Byte)
  deriving DecidableEq, Repr

/-- What the codec answers a command with: one of the five `OK` payloads (R85) or an error (R84). -/
inductive Response where
  | empty
  | byte (val : Byte)
  | half (val : Half)
  | dateTime (dt : DateTime)
  | control (c : Control)
  | error (x : ErrorKind)
  deriving DecidableEq, Repr

/-- There is no reason for a run to stop: every error of the spec is a response (R250), a bus that never answers
leaves the codec waiting (R311, the field `State.blocked`), and the codec idles without a command (R268). -/
inductive Fault where
  deriving DecidableEq, Repr

inductive Refusal where
  /-- Raised by `exec` for an instruction that has no meaning yet (safe: nothing is claimed of it). -/
  | notModelled (mnemonic : String)
  deriving DecidableEq, Repr

/-- The machine. `ws`, `halt` and `addr` are the codec's whole state (R22 to R26); `blocked` is the command in
flight that a silent bus leaves (R311); the other fields are the host's and the bus's side of the two ports. -/
structure State where
  /-- `WS`, the weekday-start offset (R22). -/
  ws : BitVec 3
  /-- `HALT`, the cached halt flag (R24, R25). -/
  halt : Bool
  /-- `ADDR`, the device bus address (R23). -/
  addr : BitVec 7
  /-- The codec waits for a transaction the bus never answers (R311). -/
  blocked : Bool
  /-- The command words the host presents, next first, each after the response to the one before (R80, R271). -/
  commands : List Word
  /-- The response words given so far, oldest first (R84). -/
  responses : List Word
  /-- The bus agent's choices for the transactions to come, next first; where the list ends, they are free (R53). -/
  bus : List BusAnswer
  /-- The bus transactions issued so far, oldest first (R69). -/
  events : List BusEvent
  /-- The model's own: how many draws of free values have been made (R15). -/
  draws : Nat
  deriving DecidableEq, Repr

/-- The machine right after a construction with these parameters (R5, R290 to R294): nothing issued, nothing
answered, no command in flight. -/
def State.resetWith (ws : BitVec 3) (halt : Bool) (addr : BitVec 7) : State :=
  { ws := ws, halt := halt, addr := addr, blocked := false, commands := [], responses := [], bus := [],
    events := [], draws := 0 }

/-- Reset with the parameters of this build (R291 to R293; log entries 7 and 8 for `WS_RESET` and `HALT_RESET`). -/
def State.reset : State := .resetWith Config.wsReset Config.haltReset Config.addrDefault

end Sys2Proof.Machine
end

