-- ==== Sys2Proof/Machine/Flags.lean ====
section
/-! DEFINITION. The bit-field units: the halt flag in bit 7 of the seconds byte (spec/44_halt.md R200 to R203) and
the control byte's level, enable and rate-select fields (spec/45_square_wave.md R220, R221, R224). -/

namespace Sys2Proof.Machine

/-- A bit as the byte 0 or 1. -/
def bitByte (b : Bool) : Byte := if b then 1 else 0

/-- A requested Boolean in a one-byte operand: zero is 0, any other value 1 (D20, D24; R205, R220). -/
def requested (a : Byte) : Bool := a != 0

/-- `HaltBit(b)`: bit 7 (R200). -/
def haltBit (b : Byte) : Bool := b.getLsbD 7

/-- `SecField(b)`: the byte with bit 7 clear (R201). -/
def secField (b : Byte) : Byte := b &&& 0x7F

/-- `HaltPack(s, h)`: the flag ORed into bit 7 (R202). -/
def haltPack (s : Byte) (h : Bool) : Byte := s ||| (bitByte h <<< 7)

/-- `HaltSet(b, v)`: bit 7 set or cleared, the other bits as they are (R203). -/
def haltSet (b : Byte) (v : Bool) : Byte := if v then b ||| 0x80 else b &&& 0x7F

/-- The legal square-wave rate operands (R5, R221). -/
def legalRates : List Byte := [0, 1, 4, 8, 32]

/-- `LegalRate(r)` (R221). -/
def legalRate (r : Byte) : Bool := legalRates.contains r

/-- `CtrlPack(rate, level)` (R220). It is applied to legal rates only (U16). -/
def ctrlPack (rate level : Byte) : Byte :=
  let rs0 := bitByte (rate == 4 || rate == 32)
  let rs1 := bitByte (rate == 8 || rate == 32)
  let en := bitByte (rate != 0)
  let out := bitByte (requested level)
  (out <<< 7) ||| (en <<< 4) ||| (rs1 <<< 1) ||| rs0

/-- The rate operand that a rate-select number stands for in an enabled configuration (R221, R224). -/
def rateOfSelect (rs : BitVec 2) : Byte :=
  match rs.toNat with
  | 0 => 1
  | 1 => 4
  | 2 => 8
  | _ => 32

/-- `CtrlUnpack(b)` (R224). -/
def ctrlUnpack (b : Byte) : Control :=
  { level := bitByte (b.getLsbD 7)
    enable := bitByte (b.getLsbD 4)
    rs := (b.extractLsb' 0 2).setWidth 8
    rate := if b.getLsbD 4 then rateOfSelect (b.extractLsb' 0 2) else 0 }

end Sys2Proof.Machine
end

