-- ==== Sys2Proof/Machine/Operands.lean ====
section
/-! DEFINITION. The value units: BCD (spec/42_bcd_codec.md), weekday (spec/41_weekday.md), calendar
(spec/43_calendar.md), the datetime codec built of them (spec/40_datetime.md R111, R112), and the layout of the
response word (spec/30_encoding.md R84 to R87).
A unit whose result the spec leaves free for some operands takes the number `k` of the draw to use there. -/

namespace Sys2Proof.Machine

/-- `YEAR_BASE` (R5). -/
def yearBase : Nat := 2000

/-- `LEAP_ADJ_FROM_MONTH` (R5, D17). -/
def leapAdjFromMonth : Nat := 2

/-- The document's month-day counts (R181, second row). -/
def monthDays : List Nat := [31, 28, 31, 30, 31, 30, 31, 31, 30, 31, 30, 31]

/-- `mod7(z)` over the integers, negative ones included (R9). -/
def mod7 (z : Int) : Nat := (z % 7).toNat

/-- `D2B(v)` on a mathematical integer: the BCD code up to 99, free above (R160, R140). -/
def d2b (k v : Nat) : Byte :=
  if v ≤ 99 then BitVec.ofNat 8 ((v / 10) <<< 4 ||| v % 10) else Config.anyU8 k

/-- `B2D(b)`, 0 to 165 (R161). -/
def b2d (b : Byte) : Nat := (b >>> 4).toNat * 10 + (b &&& 0x0F).toNat

/-- `WdEnc(wd, ws)`: the sum, which does not wrap, in BCD up to 99 and free above (R140). -/
def wdEnc (k wd ws : Nat) : Byte := d2b k (wd + ws)

/-- `WdDec(b, ws)`: decode, subtract over the integers, reduce into 0 to 6 (R142). -/
def wdDec (b : Byte) (ws : Nat) : Nat := mod7 ((b2d b : Int) - (ws : Int))

/-- `IsLeap(y)` (R180). -/
def isLeap (y : Half) : Bool := y.toNat % 4 == 0

/-- `CUM[m]`: the days of the months before month `m` of a common year (R181). -/
def cumDays (m : Nat) : Nat := (monthDays.take (m - 1)).sum

/-- `Doy(y, m, d)`: free for a month outside 1 to 12 (R182). -/
def doy (k : Nat) (y : Half) (m d : Byte) : Half :=
  if 1 ≤ m.toNat ∧ m.toNat ≤ 12 then
    BitVec.ofNat 16 (cumDays m.toNat + d.toNat
      + if leapAdjFromMonth ≤ m.toNat ∧ isLeap y then 1 else 0)
  else Config.anyU16 k

/-- The year byte `SETDT` writes: free outside 2000 to 2099 (R112, D25). -/
def yearCode (k : Nat) (y : Half) : Byte :=
  if yearBase ≤ y.toNat ∧ y.toNat ≤ yearBase + 99 then d2b k (y.toNat - yearBase)
  else Config.anyU8 k

/-- The year field of a decoded year byte (R111). -/
def yearField (b : Byte) : Half := BitVec.ofNat 16 (b2d b + yearBase)

/-- A decoded register byte as a response field; it always fits (R161). -/
def decField (b : Byte) : Byte := BitVec.ofNat 8 (b2d b)

/-- The decode half of `GETDT` (R111). -/
def decodeDateTime (k : Nat) (ws : BitVec 3) (r : TimeRegs) : DateTime :=
  { year := yearField r.year
    month := decField r.month
    day := decField r.day
    hour := decField r.hours
    minute := decField r.minutes
    second := decField (secField r.seconds)
    weekday := BitVec.ofNat 8 (wdDec r.weekday ws.toNat)
    yearday := doy k (yearField r.year) (decField r.month) (decField r.day) }

/-- How many draws `encodeDateTime` sets aside: one for each byte. -/
def encodeDraws : Nat := 7

/-- The buffer of `SETDT` (R112), byte `i` free by draw `k + i` where its field is out of the unit's range. -/
def encodeDateTime (k : Nat) (ws : BitVec 3) (halt : Bool) (year : Half)
    (month day hour minute second weekday : Byte) : TimeRegs :=
  { seconds := haltPack (d2b k second.toNat) halt
    minutes := d2b (k + 1) minute.toNat
    hours := d2b (k + 2) hour.toNat
    weekday := wdEnc (k + 3) weekday.toNat ws.toNat
    day := d2b (k + 4) day.toNat
    month := d2b (k + 5) month.toNat
    year := yearCode (k + 6) year }

/-- The seven bytes in ascending offset order (R56). -/
def timeBytes (r : TimeRegs) : List Byte :=
  [r.seconds, r.minutes, r.hours, r.weekday, r.day, r.month, r.year]

/-- Status bytes (R86, R251 to R253). -/
def statusOk : Byte := 0x00

def errorStatus : ErrorKind → Byte
  | .invalidArgument _ => 0x01
  | .busError _ => 0x02
  | .illegalCommand _ => 0x03

/-- Info bytes (R251 to R253). -/
def errorInfo : ErrorKind → Byte
  | .invalidArgument .weekdayStart => 0x01
  | .invalidArgument .squareWaveRate => 0x02
  | .busError e => e
  | .illegalCommand op => op

/-- The response word (R84, R85, R87). -/
def encodeResponse : Response → Word
  | .empty => statusOk ++ 0#88
  | .byte v => statusOk ++ v ++ 0#80
  | .half v => statusOk ++ v ++ 0#72
  | .dateTime d =>
    statusOk ++ d.year ++ d.month ++ d.day ++ d.hour ++ d.minute ++ d.second ++ d.weekday ++ d.yearday ++ 0#8
  | .control c => statusOk ++ c.level ++ c.enable ++ c.rs ++ c.rate ++ 0#56
  | .error x => errorStatus x ++ errorInfo x ++ 0#80

end Sys2Proof.Machine
end

