-- ==== Sys2Proof/Machine/Ops.lean ====
section
/-! DEFINITION. The named operations on State: the codec's registers, the host port (spec/30_encoding.md R80, R84;
spec/60_exceptions.md R264 to R268), the bus port (spec/20_memory.md R50 to R62), and the datetime read that
`GETDT` and the projections share (spec/40_datetime.md R111, R114). -/

namespace Sys2Proof.Machine

/-- `WS <- v` (R22). -/
def setWs (v : BitVec 3) (s : State) : State := { s with ws := v }

/-- `HALT <- v` (R24). -/
def setHalt (v : Bool) (s : State) : State := { s with halt := v }

/-- Sets aside `n` draws of free values, so that a draw is never used twice (R15). -/
def spendDraws (n : Nat) (s : State) : State := { s with draws := s.draws + n }

/-! ### The host port -/

/-- Ends a command with a response word (R84). -/
def respond (r : Response) (s : State) : State :=
  { s with responses := s.responses ++ [encodeResponse r] }

/-- Taking an error: the one operation behind `InvalidArgument`, `BusError` and `IllegalCommand`. It answers with the
status and info byte and saves and switches nothing else (R264, R266). There is no return from it to model: the
codec is idle after any response (R268). -/
def raiseError (x : ErrorKind) (s : State) : State := respond (.error x) s

/-- The command word the codec takes next. There is none while it waits for the bus (R311) or while the host
presents none (R268). -/
def takeCommand (s : State) : Option (Word × State) :=
  if s.blocked then none
  else match s.commands with
    | [] => none
    | w :: rest => some (w, { s with commands := rest })

/-- The host presents `w` to an idle codec, before the words it had (R271; log entry 12). -/
def presentCommand (w : Word) (s : State) : State :=
  { s with commands := w :: s.commands, blocked := false }

/-- What becomes of a word that is no command (R91, R253). -/
def rejectWord (why : Illegal) (s : State) : State := raiseError (.illegalCommand why.opcode) s

/-! ### The bus port -/

/-- The bus agent's choice for the `i`-th transaction from now: what the state's list says, else a free one
(R53; log entry 3). -/
def busAnswerAt (s : State) (i : Nat) : BusAnswer :=
  match s.bus[i]? with
  | some a => a
  | none => Config.busAnswer (s.draws + i)

/-- That choice is spent. -/
def popAnswer (s : State) : State := { s with bus := s.bus.tail, draws := s.draws + 1 }

/-- Records a transaction (R69). -/
def pushEvent (e : BusEvent) (s : State) : State := { s with events := s.events ++ [e] }

/-- The command in flight waits for the bus for ever (R311). -/
def block (s : State) : State := { s with blocked := true }

/-- How a transaction came out, with the state after it: done (for a read, with the registers it found), failed
with the bus's code, or never answered. -/
inductive BusResult where
  | done (r : TimeRegs) (s : State)
  | failed (e : Byte) (s : State)
  | silent (s : State)
  deriving DecidableEq, Repr

/-- The bytes of the registers `r` that a read of `n` from offset `off` returns, ascending (R55, R56). -/
def replyBytes (off n : Byte) (r : TimeRegs) : List Byte := ((timeBytes r).drop off.toNat).take n.toNat

/-- `MemRead(off, n)` at device `ADDR` (R11, R50). -/
def memRead (off n : Byte) (s : State) : BusResult :=
  match busAnswerAt s 0 with
  | .success r => .done r (pushEvent ⟨.read, s.addr, off, n, replyBytes off n r, .ok⟩ (popAnswer s))
  | .failure e => .failed e (pushEvent ⟨.read, s.addr, off, n, [], .failed e⟩ (popAnswer s))
  | .silence => .silent (block (pushEvent ⟨.read, s.addr, off, n, [], .unanswered⟩ (popAnswer s)))

/-- `MemWrite(off, n, buf)` at device `ADDR`, `n` the length of `buf` (R11, R50). -/
def memWrite (off : Byte) (buf : List Byte) (s : State) : BusResult :=
  match busAnswerAt s 0 with
  | .success r => .done r (pushEvent ⟨.write, s.addr, off, .ofNat 8 buf.length, buf, .ok⟩ (popAnswer s))
  | .failure e => .failed e (pushEvent ⟨.write, s.addr, off, .ofNat 8 buf.length, buf, .failed e⟩ (popAnswer s))
  | .silence =>
    .silent (block (pushEvent ⟨.write, s.addr, off, .ofNat 8 buf.length, buf, .unanswered⟩ (popAnswer s)))

/-- The rest of a command after a transaction: it goes on after a success, ends in `BusError(e)` after a failure
(R252, R262), and never ends when the bus never answers (R311). -/
def afterBus (b : BusResult) (go : TimeRegs → State → State) : State :=
  match b with
  | .done r s => go r s
  | .failed e s => raiseError (.busError e) s
  | .silent s => s

/-! ### The datetime read -/

/-- The pseudocode of `GETDT` with its last line open: the T1 read, the refresh of `HALT`, the decode, and the
response chosen from the datetime (R111, R114). -/
def readDateTime (answer : DateTime → Response) (s : State) : State :=
  afterBus (memRead 0 7 s) fun r s1 =>
    respond (answer (decodeDateTime s1.draws s1.ws r)) (spendDraws 1 (setHalt (haltBit r.seconds) s1))

end Sys2Proof.Machine
end

