-- ==== Sys2Proof/Machine/Bcd.lean ====
section
/-! DEFINITION. `D2B` and `B2D` (spec/42_bcd_codec.md). -/

namespace Sys2Proof.Machine

/-- R162. -/
def execD2b (a : Byte) (s : State) : Host.Outcome State Fault Refusal :=
  .next (respond (.byte (d2b s.draws a.toNat)) (spendDraws 1 s))

/-- R163. -/
def execB2d (a : Byte) (s : State) : Host.Outcome State Fault Refusal := .next (respond (.byte (decField a)) s)

end Sys2Proof.Machine
end

