-- ==== Sys2Proof/Machine/Calendar.lean ====
section
/-! DEFINITION. `ISLEAP` and `DOY` (spec/43_calendar.md). -/

namespace Sys2Proof.Machine

/-- R183. -/
def execIsleap (year : Half) (s : State) : Host.Outcome State Fault Refusal :=
  .next (respond (.byte (bitByte (isLeap year))) s)

/-- R184. -/
def execDoy (year : Half) (month day : Byte) (s : State) : Host.Outcome State Fault Refusal :=
  .next (respond (.half (doy s.draws year month day)) (spendDraws 1 s))

end Sys2Proof.Machine
end

