-- ==== Sys2Proof/Machine/Datetime.lean ====
section
/-! DEFINITION. `GETDT`, `SETDT` and the projections (spec/40_datetime.md). -/

namespace Sys2Proof.Machine

/-- R111. -/
def execGetdt (s : State) : Host.Outcome State Fault Refusal := .next (readDateTime .dateTime s)

/-- R112. The whole buffer is built before the one transaction; `yearday` is not read (D22). -/
def execSetdt (year : Half) (month day hour minute second weekday : Byte) (_yearday : Half) (s : State) :
    Host.Outcome State Fault Refusal :=
  let buf := encodeDateTime s.draws s.ws s.halt year month day hour minute second weekday
  .next (spendDraws encodeDraws (afterBus (memWrite 0 (timeBytes buf) s) fun _ s1 => respond .empty s1))

/-- R115. -/
def execGetyear (s : State) : Host.Outcome State Fault Refusal := .next (readDateTime (fun d => .half d.year) s)

/-- R116. -/
def execGetmonth (s : State) : Host.Outcome State Fault Refusal := .next (readDateTime (fun d => .byte d.month) s)

/-- R117. -/
def execGetday (s : State) : Host.Outcome State Fault Refusal := .next (readDateTime (fun d => .byte d.day) s)

/-- R118. -/
def execGethour (s : State) : Host.Outcome State Fault Refusal := .next (readDateTime (fun d => .byte d.hour) s)

/-- R119. -/
def execGetmin (s : State) : Host.Outcome State Fault Refusal := .next (readDateTime (fun d => .byte d.minute) s)

/-- R120. -/
def execGetsec (s : State) : Host.Outcome State Fault Refusal := .next (readDateTime (fun d => .byte d.second) s)

/-- R121. -/
def execGetwday (s : State) : Host.Outcome State Fault Refusal := .next (readDateTime (fun d => .byte d.weekday) s)

/-- R122. -/
def execGetyday (s : State) : Host.Outcome State Fault Refusal := .next (readDateTime (fun d => .half d.yearday) s)

end Sys2Proof.Machine
end

