-- ==== Sys2Proof/Machine/Halt.lean ====
section
/-! DEFINITION. `GETHALT` and `SETHALT` (spec/44_halt.md). -/

namespace Sys2Proof.Machine

/-- R204. -/
def execGethalt (s : State) : Host.Outcome State Fault Refusal := .next (respond (.byte (bitByte s.halt)) s)

/-- R205. The cache takes the requested value, and only after the write has succeeded (D14). -/
def execSethalt (a : Byte) (s : State) : Host.Outcome State Fault Refusal :=
  .next (afterBus (memRead 0 1 s) fun r s1 =>
    afterBus (memWrite 0 [haltSet r.seconds (requested a)] s1) fun _ s2 =>
      respond .empty (setHalt (requested a) s2))

end Sys2Proof.Machine
end

