-- ==== Sys2Proof/Machine/SquareWave.lean ====
section
/-! DEFINITION. `SQW`, `CTLPK`, `CTLUPK` (spec/45_square_wave.md). -/

namespace Sys2Proof.Machine

/-- R222. An illegal rate is refused before the bus is touched (R261). -/
def execSqw (a b : Byte) (s : State) : Host.Outcome State Fault Refusal :=
  .next (if legalRate a then afterBus (memWrite 7 [ctrlPack a b] s) fun _ s1 => respond .empty s1
    else raiseError (.invalidArgument .squareWaveRate) s)

/-- R223. -/
def execCtlpk (a b : Byte) (s : State) : Host.Outcome State Fault Refusal :=
  .next (if legalRate a then respond (.byte (ctrlPack a b)) s
    else raiseError (.invalidArgument .squareWaveRate) s)

/-- R225. -/
def execCtlupk (a : Byte) (s : State) : Host.Outcome State Fault Refusal :=
  .next (respond (.control (ctrlUnpack a)) s)

end Sys2Proof.Machine
end

