-- ==== Sys2Proof/Machine/Weekday.lean ====
section
/-! DEFINITION. `GETWS`, `SETWS`, `WDENC`, `WDDEC` (spec/41_weekday.md). -/

namespace Sys2Proof.Machine

/-- R143. -/
def execGetws (s : State) : Host.Outcome State Fault Refusal := .next (respond (.byte (s.ws.setWidth 8)) s)

/-- R141. -/
def execSetws (a : Byte) (s : State) : Host.Outcome State Fault Refusal :=
  .next (if a ≤ 6 then respond .empty (setWs (a.setWidth 3) s)
    else raiseError (.invalidArgument .weekdayStart) s)

/-- R144. The offset is the operand `b`, not `WS`, and is not validated. -/
def execWdenc (a b : Byte) (s : State) : Host.Outcome State Fault Refusal :=
  .next (respond (.byte (wdEnc s.draws a.toNat b.toNat)) (spendDraws 1 s))

/-- R145. -/
def execWddec (a b : Byte) (s : State) : Host.Outcome State Fault Refusal :=
  .next (respond (.byte (.ofNat 8 (wdDec a b.toNat))) s)

end Sys2Proof.Machine
end

