-- ==== Sys2Proof/Machine/Dispatch.lean ====
section
/-! DEFINITION. One arm per command: the meaning that executes it. -/

namespace Sys2Proof.Machine

def exec (i : Instr) (s : State) : Host.Outcome State Fault Refusal :=
  match i with
  | .getdt => Sys2Proof.Machine.execGetdt s
  | .setdt year month day hour minute second weekday yearday => Sys2Proof.Machine.execSetdt year month day hour minute second weekday yearday s
  | .getyear => Sys2Proof.Machine.execGetyear s
  | .getmonth => Sys2Proof.Machine.execGetmonth s
  | .getday => Sys2Proof.Machine.execGetday s
  | .gethour => Sys2Proof.Machine.execGethour s
  | .getmin => Sys2Proof.Machine.execGetmin s
  | .getsec => Sys2Proof.Machine.execGetsec s
  | .getwday => Sys2Proof.Machine.execGetwday s
  | .getyday => Sys2Proof.Machine.execGetyday s
  | .getws => Sys2Proof.Machine.execGetws s
  | .setws a => Sys2Proof.Machine.execSetws a s
  | .wdenc a b => Sys2Proof.Machine.execWdenc a b s
  | .wddec a b => Sys2Proof.Machine.execWddec a b s
  | .d2b a => Sys2Proof.Machine.execD2b a s
  | .b2d a => Sys2Proof.Machine.execB2d a s
  | .isleap year => Sys2Proof.Machine.execIsleap year s
  | .doy year month day => Sys2Proof.Machine.execDoy year month day s
  | .gethalt => Sys2Proof.Machine.execGethalt s
  | .sethalt a => Sys2Proof.Machine.execSethalt a s
  | .sqw a b => Sys2Proof.Machine.execSqw a b s
  | .ctlpk a b => Sys2Proof.Machine.execCtlpk a b s
  | .ctlupk a => Sys2Proof.Machine.execCtlupk a s

end Sys2Proof.Machine
end

