-- ==== Sys2Proof/Machine/Step.lean ====
section
/-! DEFINITION. One step: the codec takes the host's next command word, decodes it, and executes it whole
(spec/20_memory.md R62, R63; D26). -/

namespace Sys2Proof.Machine

/-- A command is one step, from taking its word to its response (R63). Without a command to take, nothing
happens: the codec is idle (R268), or it waits for ever for a silent bus (R311). An illegal word is answered like
a command and changes nothing (R91, R253). -/
def step (s : State) : Host.Outcome State Fault Refusal :=
  match takeCommand s with
  | none => .next s
  | some (w, s1) =>
    match decode w with
    | .ok i => exec i s1
    | .error why => .next (rejectWord why s1)

/-- `s` with the host presenting the word `w` next, to an idle codec. Every row of the opcode table is one 96-bit
word, so `nbits` adds nothing (log entries 11 and 12). -/
def State.withFetchWord (s : State) (_nbits w : Nat) : State := presentCommand (BitVec.ofNat 96 w) s

end Sys2Proof.Machine
end

