-- ==== Sys2Proof/Safety.lean ====
section
/-! DEFINITION. The terms claims are stated in: the spec's own arithmetic and tables written out independently of
the units (R142, R160, R161, R181, R182, R220), the shape a response word and a bus transaction may have
(R52, R84 to R87), what a command does when it only answers, and the invariant of the machine. -/

namespace Sys2Proof.Machine

/-! ### The spec's values -/

/-- The decimal value of a register byte: ten times the high nibble plus the low one (R161). -/
def bcdValue (b : Byte) : Nat := 10 * (b.toNat / 16) + b.toNat % 16

/-- The BCD code of a number up to 99, in the form `v + 6 * (v div 10)` (R160). -/
def bcdCode (v : Nat) : Byte := BitVec.ofNat 8 (v + 6 * (v / 10))

/-- The third row of the table of R181; 0 outside months 1 to 12. -/
def daysBefore : Nat → Nat
  | 1 => 0
  | 2 => 31
  | 3 => 59
  | 4 => 90
  | 5 => 120
  | 6 => 151
  | 7 => 181
  | 8 => 212
  | 9 => 243
  | 10 => 273
  | 11 => 304
  | 12 => 334
  | _ => 0

/-- The yearday of R182 in a month from 1 to 12. -/
def dayNumber (y m d : Nat) : Nat := daysBefore m + d + if 2 ≤ m ∧ y % 4 = 0 then 1 else 0

/-- The days of a month (R181), 29 in a leap February, and a date that exists (R185 e). -/
def monthLength (y m : Nat) : Nat :=
  if m = 2 then (if y % 4 = 0 then 29 else 28) else if m ∈ [4, 6, 9, 11] then 30 else 31
def ValidDate (y m d : Nat) : Prop := 1 ≤ m ∧ m ≤ 12 ∧ 1 ≤ d ∧ d ≤ monthLength y m

/-- `r` is `mod7(z)` (R9): the one number in 0 to 6 that differs from `z` by a multiple of 7. -/
def IsMod7 (z : Int) (r : Nat) : Prop := r ≤ 6 ∧ ∃ q : Int, z = 7 * q + r

/-- The control byte's value for each of the ten legal settings (the table of R220). -/
def controlTable : List (Byte × Byte × Byte) :=
  [(0, 0x00, 0x80), (1, 0x10, 0x90), (4, 0x11, 0x91), (8, 0x12, 0x92), (32, 0x13, 0x93)]

/-! ### Words -/

/-- The response words, field by field from the top: `OK` in the formats RB, RW, RN, RC, RDT, and an error
(R84, R85, R87). -/
def okByte (v : Byte) : Word := 0x00#8 ++ v ++ 0#80
def okHalf (v : Half) : Word := 0x00#8 ++ v ++ 0#72
def okEmpty : Word := 0#96
def okControl (level enable rs rate : Byte) : Word := 0x00#8 ++ level ++ enable ++ rs ++ rate ++ 0#56
def okDateTime (year : Half) (month day hour minute second weekday : Byte) (yearday : Half) : Word :=
  0x00#8 ++ year ++ month ++ day ++ hour ++ minute ++ second ++ weekday ++ yearday ++ 0#8
def errorWord (status info : Byte) : Word := status ++ info ++ 0#80

/-- The status and info bytes of a response word (R84). -/
def wordStatus (w : Word) : Byte := w.extractLsb' 88 8
def wordInfo (w : Word) : Byte := w.extractLsb' 80 8

/-- A response word the codec may give: a status of R86, and nothing below the info byte of an error (R87). -/
def legalResponse (w : Word) : Bool :=
  decide ((wordStatus w).toNat ≤ 3) && (wordStatus w == 0x00 || w.extractLsb' 0 80 == 0)

/-- How many low bits an `OK` response of a format leaves 0 (R85, "Unlisted bits are 0"). -/
def unlistedBits : ResponseFormat → Nat
  | .RN => 88
  | .RB => 80
  | .RW => 72
  | .RDT => 8
  | .RC => 56

/-- The rows of spec/opcode_table.json in its order, each as (match, mask): a word is the row's command when its
bits under the mask are the row's. -/
def opcodeRows : List (Word × Word) :=
  [ (0x100000000000000000000000, 0xFFFFFFFFFFFFFFFFFFFFFFFF),
    (0x110000000000000000000000, 0xFF00000000000000000000FF),
    (0x120000000000000000000000, 0xFFFFFFFFFFFFFFFFFFFFFFFF),
    (0x130000000000000000000000, 0xFFFFFFFFFFFFFFFFFFFFFFFF),
    (0x140000000000000000000000, 0xFFFFFFFFFFFFFFFFFFFFFFFF),
    (0x150000000000000000000000, 0xFFFFFFFFFFFFFFFFFFFFFFFF),
    (0x160000000000000000000000, 0xFFFFFFFFFFFFFFFFFFFFFFFF),
    (0x170000000000000000000000, 0xFFFFFFFFFFFFFFFFFFFFFFFF),
    (0x180000000000000000000000, 0xFFFFFFFFFFFFFFFFFFFFFFFF),
    (0x190000000000000000000000, 0xFFFFFFFFFFFFFFFFFFFFFFFF),
    (0x200000000000000000000000, 0xFFFFFFFFFFFFFFFFFFFFFFFF),
    (0x210000000000000000000000, 0xFF00FFFFFFFFFFFFFFFFFFFF) ]
  ++
  [ (0x220000000000000000000000, 0xFF0000FFFFFFFFFFFFFFFFFF),
    (0x230000000000000000000000, 0xFF0000FFFFFFFFFFFFFFFFFF),
    (0x300000000000000000000000, 0xFF00FFFFFFFFFFFFFFFFFFFF),
    (0x310000000000000000000000, 0xFF00FFFFFFFFFFFFFFFFFFFF),
    (0x400000000000000000000000, 0xFF0000FFFFFFFFFFFFFFFFFF),
    (0x410000000000000000000000, 0xFF00000000FFFFFFFFFFFFFF),
    (0x500000000000000000000000, 0xFFFFFFFFFFFFFFFFFFFFFFFF),
    (0x510000000000000000000000, 0xFF00FFFFFFFFFFFFFFFFFFFF),
    (0x600000000000000000000000, 0xFF0000FFFFFFFFFFFFFFFFFF),
    (0x610000000000000000000000, 0xFF0000FFFFFFFFFFFFFFFFFF),
    (0x620000000000000000000000, 0xFF00FFFFFFFFFFFFFFFFFFFF) ]

/-- A word that is some row's command (R90). -/
def LegalWord (w : Word) : Prop := ∃ row ∈ opcodeRows, w &&& row.2 = row.1

/-! ### Bus transactions -/

/-- A shape of R52: primitive, offset, length. -/
abbrev Shape := Dir × Byte × Byte

def shapeT1 : Shape := (.read, 0, 7)
def shapeT2 : Shape := (.write, 0, 7)
def shapeT3 : Shape := (.read, 0, 1)
def shapeT4 : Shape := (.write, 0, 1)
def shapeT5 : Shape := (.write, 7, 1)

def BusEvent.shape (e : BusEvent) : Shape := (e.dir, e.offset, e.length)

/-- The transactions a command issues when none fails, in order (R52 column "issued by"; R90 column "issues").
A rate outside the legal set keeps `SQW` off the bus (R222). -/
def transactionsOf : Instr → List Shape
  | .getdt | .getyear | .getmonth | .getday | .gethour | .getmin | .getsec | .getwday | .getyday => [shapeT1]
  | .setdt .. => [shapeT2]
  | .sethalt _ => [shapeT3, shapeT4]
  | .sqw a _ => if a ∈ [0, 1, 4, 8, 32] then [shapeT5] else []
  | .getws | .setws _ | .wdenc _ _ | .wddec _ _ | .d2b _ | .b2d _ | .isleap _ | .doy _ _ _ | .gethalt
  | .ctlpk _ _ | .ctlupk _ => []

/-- A transaction the codec may issue at `addr`: one of the five shapes, with as many bytes as it moved: all of
them for a write and for a read that succeeded, none for a read that did not (R50, R52, R55, R58). -/
def legalEvent (addr : BitVec 7) (e : BusEvent) : Bool :=
  e.device == addr && [shapeT1, shapeT2, shapeT3, shapeT4, shapeT5].contains e.shape &&
    (e.bytes.length == if e.dir == .write || e.outcome == .ok then e.length.toNat else 0)

/-! ### What a command does -/

/-- `i` answers `w` at `s` and does nothing else: no transaction, no change of `WS`, `HALT`, `ADDR` or of the two
agents' data. Only the model's own count of draws may move. -/
def Answers (i : Instr) (s : State) (w : Word) : Prop :=
  ∃ n, exec i s = .next { s with responses := s.responses ++ [w], draws := n }

/-- `s` after one transaction `e` that took the bus's next answer, and a response `w`. -/
def afterOne (s : State) (e : BusEvent) (w : Word) (n : Nat) : State :=
  { s with bus := s.bus.tail, events := s.events ++ [e], responses := s.responses ++ [w], draws := n }

/-- The T1 transaction that found the registers `r`, and the one that failed with `e` (R52). -/
def readOk (s : State) (r : TimeRegs) : BusEvent :=
  ⟨.read, s.addr, 0, 7, [r.seconds, r.minutes, r.hours, r.weekday, r.day, r.month, r.year], .ok⟩
def readFailed (s : State) (e : Byte) : BusEvent := ⟨.read, s.addr, 0, 7, [], .failed e⟩

/-- `i` is a datetime read that, when the bus returns `r`, answers `w`, takes `HALT` from bit 7 of the seconds byte
and does nothing else (R111, R114). -/
def ReadsAndAnswers (i : Instr) (s : State) (r : TimeRegs) (w : Word) : Prop :=
  ∃ n, exec i s = .next { afterOne s (readOk s r) w n with halt := r.seconds.getLsbD 7 }

/-- The commands of R111 and R114. -/
def datetimeReads : List Instr :=
  [.getdt, .getyear, .getmonth, .getday, .gethour, .getmin, .getsec, .getwday, .getyday]

/-! ### The invariant -/

/-- What every step keeps: `WS` is in 0 to 6 (R22); every transaction on record carries `ADDR` and is one of the
five shapes (R23, R52); every response word is a legal one (R86, R87); and a transaction the bus never answered
means that the codec still waits for it (R311). -/
def State.Inv (s : State) : Prop :=
  s.ws.toNat ≤ 6 ∧ (∀ e ∈ s.events, legalEvent s.addr e = true) ∧ (∀ w ∈ s.responses, legalResponse w = true) ∧
    (∀ e ∈ s.events, e.outcome = .unanswered → s.blocked = true)

end Sys2Proof.Machine
end

