-- ==== Sys2Proof/Certificates/Slice0/Obligations.lean ====
section
/-! DEFINITION. The statements for the provers, each from the rules of spec/ that its docstring names.
`s` is any state, reached by a run or not; `busAnswerAt s i` is what the bus does with the `i`-th transaction from
`s`, by the state's list or freely (R53). -/

open Sys2Proof Sys2Proof.Machine

/-! ### Words (30_encoding) -/

/-- R93. The spec derives R93 from its own word layout and opcodes (D3, D4, D7). -/
def Obligations.DecoderAndEncoderAreInverse : Prop :=
  (∀ i : Instr, decode (encode i) = .ok i) ∧ ∀ (w : Word) (i : Instr), decode w = .ok i → encode i = w

/-- R83, R90, R91 against spec/opcode_table.json: the decoder accepts exactly the words of the table's rows. The
opcodes and the strict decoding are the spec's own decision D4. -/
def Obligations.LegalWordsAreTheOpcodeTable : Prop :=
  ∀ w : Word, (∃ i, decode w = .ok i) ↔ LegalWord w

/-- R91, R253: a word of no row is answered with `ILLEGAL_COMMAND` and its byte 0, and nothing else happens. The
all-zero and the all-ones word are such words. The status is the spec's own decision D4. -/
def Obligations.IllegalWordIsAnsweredAndIgnored : Prop :=
  ¬ LegalWord 0#96 ∧ ¬ LegalWord (BitVec.allOnes 96) ∧
  ∀ (s : State) (w : Word) (rest : List Word), s.blocked = false → s.commands = w :: rest → ¬ LegalWord w →
    step s = .next { s with commands := rest, responses := s.responses ++ [errorWord 0x03 (w.extractLsb' 88 8)] }

/-- The words of R103 and of the examples of R111, R141, R162, R184, R205, R222 and R225 decode to the commands
they stand for there. The words follow the spec's own decisions D3 and D4. -/
def Obligations.SpecWordsDecode : Prop :=
  decode 0x1107E7051D142D3B03009500 = .ok (.setdt 2023 5 29 20 45 59 3 149) ∧
  decode 0x100000000000000000000000 = .ok .getdt ∧
  decode 0x210300000000000000000000 = .ok (.setws 3) ∧
  decode 0x303B00000000000000000000 = .ok (.d2b 59) ∧
  decode 0x4107E8031A00000000000000 = .ok (.doy 2024 3 26) ∧
  decode 0x510100000000000000000000 = .ok (.sethalt 1) ∧
  decode 0x602001000000000000000000 = .ok (.sqw 32 1) ∧
  decode 0x629300000000000000000000 = .ok (.ctlupk 0x93)

/-- R85: each field of the five `OK` formats stands where the table puts it, and the unlisted bits are 0. The
layout is the spec's own decision D3. -/
def Obligations.OkResponseLayout : Prop :=
  encodeResponse .empty = 0#96 ∧
  (∀ v : Byte, let x := encodeResponse (.byte v)
    x.extractLsb' 88 8 = 0x00#8 ∧ x.extractLsb' 80 8 = v ∧ x.extractLsb' 0 80 = 0#80) ∧
  (∀ v : Half, let x := encodeResponse (.half v)
    x.extractLsb' 88 8 = 0x00#8 ∧ x.extractLsb' 72 16 = v ∧ x.extractLsb' 0 72 = 0#72) ∧
  (∀ d : DateTime, let x := encodeResponse (.dateTime d)
    x.extractLsb' 88 8 = 0x00#8 ∧ x.extractLsb' 72 16 = d.year ∧ x.extractLsb' 64 8 = d.month ∧
    x.extractLsb' 56 8 = d.day ∧ x.extractLsb' 48 8 = d.hour ∧ x.extractLsb' 40 8 = d.minute ∧
    x.extractLsb' 32 8 = d.second ∧ x.extractLsb' 24 8 = d.weekday ∧ x.extractLsb' 8 16 = d.yearday ∧
    x.extractLsb' 0 8 = 0#8) ∧
  (∀ c : Control, let x := encodeResponse (.control c)
    x.extractLsb' 88 8 = 0x00#8 ∧ x.extractLsb' 80 8 = c.level ∧ x.extractLsb' 72 8 = c.enable ∧
    x.extractLsb' 64 8 = c.rs ∧ x.extractLsb' 56 8 = c.rate ∧ x.extractLsb' 0 56 = 0#56)

/-- R87, with the codes of R251 to R253: an error response is its status, its info byte, and zeros. The codes are
the spec's own decisions D6 and D21. -/
def Obligations.ErrorResponseLayout : Prop :=
  (∀ x : ErrorKind, (encodeResponse (.error x)).extractLsb' 0 80 = 0#80) ∧
  (∀ x : ErrorKind, wordStatus (encodeResponse (.error x)) =
    match x with | .invalidArgument _ => 0x01#8 | .busError _ => 0x02#8 | .illegalCommand _ => 0x03#8) ∧
  (∀ x : ErrorKind, wordInfo (encodeResponse (.error x)) =
    match x with
    | .invalidArgument .weekdayStart => 0x01#8
    | .invalidArgument .squareWaveRate => 0x02#8
    | .busError e => e
    | .illegalCommand op => op)

/-- R85 and the column "response" of R90: whatever a command answers with status `OK`, the bits its row's response
format does not list are 0. -/
def Obligations.OkResponsesHaveTheirRowsFormat : Prop :=
  ∀ (i : Instr) (s t : State) (w : Word), exec i s = .next t → t.responses = s.responses ++ [w] →
    wordStatus w = 0x00 → w.extractLsb' 0 (unlistedBits i.mnemonic.responseFormat) = 0

/-- R102: the four pseudo-instructions stand for their expansions, for all operands that fit. The syntax is the
spec's own decision D4. -/
def Obligations.PseudoInstructionsExpand : Prop :=
  assemble ⟨.halt, []⟩ = some (.sethalt 1) ∧ assemble ⟨.run, []⟩ = some (.sethalt 0) ∧
  (∀ level : Byte, assemble ⟨.sqwoff, [level.toNat]⟩ = some (.sqw 0 level)) ∧
  (∀ (y : Half) (mo d h mi s wd : Byte),
    assemble ⟨.setdt7, [y.toNat, mo.toNat, d.toNat, h.toNat, mi.toNat, s.toNat, wd.toNat]⟩ =
      some (.setdt y mo d h mi s wd 0))

/-- R100 with the operand numbers and widths of R81, R82 and R102: a command written out is well formed and assembles
to itself; a line with its head's number of operands, each below two to the width of its field, assembles to some
command, and a line with another number of operands or with a number of two to its field's width or more assembles to
nothing. The syntax is the spec's own decision D4; what becomes of such a line is the model's choice, log entry 18. -/
def Obligations.WrittenCommandsAssemble : Prop :=
  (∀ i : Instr, i.wellFormed = true ∧ assemble i.line = some i) ∧
  (∀ l : Line, l.operands.length = l.head.operandWidths.length →
    (∀ p ∈ l.operands.zip l.head.operandWidths, p.1 < 2 ^ p.2) → ∃ i, assemble l = some i) ∧
  ∀ l : Line, l.operands.length ≠ l.head.operandWidths.length ∨
    (∃ p ∈ l.operands.zip l.head.operandWidths, 2 ^ p.2 ≤ p.1) → assemble l = none

/-! ### The step, the ports, the whole machine -/

/-- R63, R261: when the host's next word decodes to a command and the codec is idle, a step executes exactly that
command, with the word taken. That a command is one atomic step is the spec's own decision D26; the host port is
log entry 1. -/
def Obligations.StepExecutesTheDecodedCommand : Prop :=
  ∀ (s : State) (w : Word) (rest : List Word) (i : Instr), s.blocked = false → s.commands = w :: rest →
    decode w = .ok i → step s = exec i { s with commands := rest }

/-- R260, R268, R311: without a command to take, a step changes nothing. The form of the idle and of the waiting
state is the model's (log entries 1 and 4). -/
def Obligations.StepWithoutACommandChangesNothing : Prop :=
  ∀ s : State, s.commands = [] ∨ s.blocked = true → step s = .next s

/-- R84, R250, R311: a step that takes a word answers it with exactly one response, or is left waiting for the bus
with none. It always takes a next state. The form of the ports and of the waiting state is the model's (log entries
1, 2 and 4). -/
def Obligations.OneResponsePerCommand : Prop :=
  ∀ (s : State) (w : Word) (rest : List Word), s.blocked = false → s.commands = w :: rest →
    ∃ t, step s = .next t ∧ t.commands = rest ∧
      ((t.blocked = false ∧ ∃ x, t.responses = s.responses ++ [x]) ∨
       (t.blocked = true ∧ t.responses = s.responses))

/-- The invariant `State.Inv` (R22, R23, R52, R86, R87, R311) is kept by every step. The records and the waiting
state are the model's (log entries 2, 4 and 15). -/
def Obligations.StepKeepsTheInvariant : Prop :=
  ∀ s t : State, s.Inv → step s = .next t → t.Inv

/-- The invariant holds after every construction with `WS_RESET` in 0 to 6 (R291 to R294), this build's included.
That the records start empty is the model's (log entry 9). -/
def Obligations.ResetMeetsTheInvariant : Prop :=
  (∀ (ws : BitVec 3) (halt : Bool) (addr : BitVec 7), ws.toNat ≤ 6 → (State.resetWith ws halt addr).Inv) ∧
    State.reset.Inv

/-- R293: `ADDR` is the construction argument, `0x68` by default, and no step changes it. -/
def Obligations.AddressIsFixedAtConstruction : Prop :=
  (∀ (ws : BitVec 3) (halt : Bool) (addr : BitVec 7), (State.resetWith ws halt addr).addr = addr) ∧
  State.reset.addr = 0x68 ∧ ∀ s t : State, step s = .next t → t.addr = s.addr

/-- R290 to R292, R294: construction sets `WS` and `HALT` to its parameters, issues no transaction, and leaves the
codec idle; `State.reset` is one such construction. The zero values of its two open parameters are the model's
choice (log entries 7 and 8), so nothing is said of them here but that `WS` is in range. The spec derives R294; the
empty records are log entry 9. -/
def Obligations.ConstructionTouchesNothing : Prop :=
  (∀ (ws : BitVec 3) (halt : Bool) (addr : BitVec 7), let s := State.resetWith ws halt addr
    s.ws = ws ∧ s.halt = halt ∧ s.events = [] ∧ s.responses = [] ∧ s.blocked = false ∧
      ∀ w, ∃ t, takeCommand (presentCommand w s) = some (w, t)) ∧
  ∃ (ws : BitVec 3) (halt : Bool), ws.toNat ≤ 6 ∧ State.reset = State.resetWith ws halt 0x68

/-- R264: a command that ends in an error leaves `WS`, `HALT` and `ADDR` as they were, whatever the bus did. For a
failed write of SETHALT this is the spec's own decision D14. -/
def Obligations.ErrorsLeaveCodecStateAlone : Prop :=
  ∀ (i : Instr) (s t : State) (w : Word), exec i s = .next t → t.responses = s.responses ++ [w] →
    wordStatus w ≠ 0x00 → t.ws = s.ws ∧ t.halt = s.halt ∧ t.addr = s.addr ∧ t.blocked = s.blocked

/-- R270, R22, R24: only `SETWS` with an operand of 0 to 6 changes `WS`; only `SETHALT`, `GETDT` and the
projections change `HALT`. The writers of HALT are the spec's own decisions D11, D13 and D14, the one mode D23. -/
def Obligations.OnlyTheirCommandsWriteCodecState : Prop :=
  ∀ (i : Instr) (s t : State), exec i s = .next t →
    (t.ws ≠ s.ws → ∃ a : Byte, a.toNat ≤ 6 ∧ i = .setws a) ∧
    (t.halt ≠ s.halt → i ∈ datetimeReads ∨ ∃ a, i = .sethalt a)

/-- R40, R52, R62, R262: the transactions a command issues, in order, are those its row lists, all at `ADDR`; a
transaction follows another only after that one succeeded; and a command that answers `OK` has issued them all. The
full read of a projection is the spec's own decision D13; the reply length is D19 (log entry 6). -/
def Obligations.CommandsIssueTheirTransactions : Prop :=
  ∀ (i : Instr) (s t : State), exec i s = .next t →
    ∃ ev, t.events = s.events ++ ev ∧ ev.map BusEvent.shape <+: transactionsOf i ∧
      (∀ e ∈ ev, legalEvent s.addr e = true) ∧ (∀ e ∈ ev.dropLast, e.outcome = .ok) ∧
      (∀ w, t.responses = s.responses ++ [w] → wordStatus w = 0x00 → ev.map BusEvent.shape = transactionsOf i)

/-- R26, R99, R268: a command depends neither on the responses and transactions before it nor on the words still to
come. With any two histories and any two lists of words to come it adds the same responses and transactions, leaves
the words as they are and changes the rest alike; an earlier error leaves no trace. Both runs have the same choices
of the bus and read the same free values, as log entry 10 says. -/
def Obligations.HistoryDoesNotMatter : Prop :=
  ∀ (i : Instr) (s : State) (p : List Word) (q : List BusEvent) (c : List Word),
    ∃ t, exec i { s with responses := [], events := [], commands := [] } = .next t ∧ t.commands = [] ∧
      exec i { s with responses := p, events := q, commands := c } =
        .next { t with responses := p ++ t.responses, events := q ++ t.events, commands := c }

/-- R62 (d), R69: a run of any length takes a next state at every step, only appends to the response and bus
records, and takes the host's words in order. The records are the model's (log entries 1, 2 and 15). -/
def Obligations.RunsOnlyAppend : Prop :=
  ∀ (n : Nat) (s : State), ∃ t, core.run n s = .next t ∧
    s.events <+: t.events ∧ s.responses <+: t.responses ∧ t.commands <:+ s.commands

/-- R311: if the bus answers every transaction, every command gets its response. The bus as a list of answers is
log entry 3. -/
def Obligations.EveryCommandIsAnsweredWhenTheBusAnswers : Prop :=
  ∀ s : State, s.blocked = false → 2 * s.commands.length ≤ s.bus.length → (∀ a ∈ s.bus, a ≠ .silence) →
    ∃ t, core.run s.commands.length s = .next t ∧ t.commands = [] ∧ t.blocked = false ∧
      t.responses.length = s.responses.length + s.commands.length

/-- R311: a command whose transaction the bus never answers gives no response, changes no state of the codec, and
keeps the codec from every further command; all that is left of it is the transaction on record, unanswered. A
command without transactions always responds. The form of the waiting state is log entry 4, the record of the
unanswered transaction log entry 15. -/
def Obligations.SilentBusLeavesTheCommandWaiting : Prop :=
  (∀ (i : Instr) (s : State), transactionsOf i ≠ [] → busAnswerAt s 0 = .silence →
    ∃ (t : State) (e : BusEvent) (n : Nat), exec i s = .next t ∧
      t = { s with blocked := true, bus := s.bus.tail, events := s.events ++ [e], draws := n } ∧
      (transactionsOf i).head? = some e.shape ∧ legalEvent s.addr e = true ∧ e.outcome = .unanswered ∧
      step t = .next t) ∧
  (∀ (a : Byte) (s : State) (r : TimeRegs), busAnswerAt s 0 = .success r → busAnswerAt s 1 = .silence →
    ∃ (t : State) (n : Nat), exec (.sethalt a) s = .next t ∧
      t = { s with
        blocked := true, bus := s.bus.tail.tail, draws := n
        events := s.events ++ [⟨.read, s.addr, 0, 1, [r.seconds], .ok⟩,
          ⟨.write, s.addr, 0, 1, [if a = 0 then r.seconds &&& 0x7F else r.seconds ||| 0x80], .unanswered⟩] } ∧
      step t = .next t) ∧
  (∀ (i : Instr) (s : State), transactionsOf i = [] →
    ∃ t w, exec i s = .next t ∧ t.responses = s.responses ++ [w] ∧ t.events = s.events ∧ t.bus = s.bus)

/-! ### Datetime transfers (40_datetime) -/

/-- R111: `GETDT` reads the seven registers, takes `HALT` from bit 7 of the seconds byte, and answers the decoded
fields; the yearday is free for a month outside 1 to 12. If the read fails it answers `BUS_ERROR e` and changes
nothing of the codec. It contains the spec's own decisions D10, D11, D16 and D17. -/
def Obligations.GetdtReadsAndDecodes : Prop :=
  encode .getdt = 0x100000000000000000000000 ∧
  ∀ s : State,
    (∀ r, busAnswerAt s 0 = .success r →
      ∃ (wd : Nat) (yd : Half), IsMod7 ((bcdValue r.weekday : Int) - s.ws.toNat) wd ∧
        (1 ≤ bcdValue r.month → bcdValue r.month ≤ 12 →
          yd.toNat = dayNumber (bcdValue r.year + 2000) (bcdValue r.month) (bcdValue r.day)) ∧
        ReadsAndAnswers .getdt s r
          (okDateTime (.ofNat 16 (bcdValue r.year + 2000)) (.ofNat 8 (bcdValue r.month)) (.ofNat 8 (bcdValue r.day))
            (.ofNat 8 (bcdValue r.hours)) (.ofNat 8 (bcdValue r.minutes))
            (.ofNat 8 (bcdValue (r.seconds &&& 0x7F))) (.ofNat 8 wd) yd)) ∧
    (∀ e, busAnswerAt s 0 = .failure e →
      ∃ n, exec .getdt s = .next (afterOne s (readFailed s e) (errorWord 0x02 e) n))

/-- The result ranges of R111, for every byte the chip may return: each field of the response is the whole value
decoded, not cut to its width, and lies in the range that R111 gives. The spec derives these ranges in R111; the
order of the weekday's decode is its own decision D10, the threshold of the yearday D17. -/
def Obligations.GetdtResultRanges : Prop :=
  ∀ (s t : State) (r : TimeRegs) (w : Word), busAnswerAt s 0 = .success r → exec .getdt s = .next t →
    t.responses = s.responses ++ [w] →
    let year := (w.extractLsb' 72 16).toNat
    let month := (w.extractLsb' 64 8).toNat
    let day := (w.extractLsb' 56 8).toNat
    let hour := (w.extractLsb' 48 8).toNat
    let minute := (w.extractLsb' 40 8).toNat
    let second := (w.extractLsb' 32 8).toNat
    let weekday := (w.extractLsb' 24 8).toNat
    let yearday := (w.extractLsb' 8 16).toNat
    (year = bcdValue r.year + 2000 ∧ 2000 ≤ year ∧ year ≤ 2165) ∧
    (month = bcdValue r.month ∧ month ≤ 165) ∧ (day = bcdValue r.day ∧ day ≤ 165) ∧
    (hour = bcdValue r.hours ∧ hour ≤ 165) ∧ (minute = bcdValue r.minutes ∧ minute ≤ 165) ∧
    (second = bcdValue (r.seconds &&& 0x7F) ∧ second ≤ 85) ∧
    (IsMod7 ((bcdValue r.weekday : Int) - s.ws.toNat) weekday ∧ weekday ≤ 6) ∧
    (1 ≤ month → month ≤ 12 → yearday = dayNumber year month day ∧ yearday ≤ 500)

/-- R114 to R122: each projection does all that `GETDT` does, the refresh of `HALT` included, and answers one
field; a failed read answers `BUS_ERROR e` and changes nothing of the codec. It contains the spec's own decisions
D10, D11, D13, D16 and D17. -/
def Obligations.ProjectionsReadAllAndAnswerOneField : Prop :=
  encode .getyear = 0x120000000000000000000000 ∧ encode .getmonth = 0x130000000000000000000000 ∧
  encode .getday = 0x140000000000000000000000 ∧ encode .gethour = 0x150000000000000000000000 ∧
  encode .getmin = 0x160000000000000000000000 ∧ encode .getsec = 0x170000000000000000000000 ∧
  encode .getwday = 0x180000000000000000000000 ∧ encode .getyday = 0x190000000000000000000000 ∧
  ∀ s : State,
    (∀ r, busAnswerAt s 0 = .success r →
      ReadsAndAnswers .getyear s r (okHalf (.ofNat 16 (bcdValue r.year + 2000))) ∧
      ReadsAndAnswers .getmonth s r (okByte (.ofNat 8 (bcdValue r.month))) ∧
      ReadsAndAnswers .getday s r (okByte (.ofNat 8 (bcdValue r.day))) ∧
      ReadsAndAnswers .gethour s r (okByte (.ofNat 8 (bcdValue r.hours))) ∧
      ReadsAndAnswers .getmin s r (okByte (.ofNat 8 (bcdValue r.minutes))) ∧
      ReadsAndAnswers .getsec s r (okByte (.ofNat 8 (bcdValue (r.seconds &&& 0x7F)))) ∧
      (∃ wd, IsMod7 ((bcdValue r.weekday : Int) - s.ws.toNat) wd ∧
        ReadsAndAnswers .getwday s r (okByte (.ofNat 8 wd))) ∧
      (∃ yd : Half, (1 ≤ bcdValue r.month → bcdValue r.month ≤ 12 →
          yd.toNat = dayNumber (bcdValue r.year + 2000) (bcdValue r.month) (bcdValue r.day)) ∧
        ReadsAndAnswers .getyday s r (okHalf yd))) ∧
    (∀ e, busAnswerAt s 0 = .failure e → ∀ i ∈ datetimeReads,
      ∃ n, exec i s = .next (afterOne s (readFailed s e) (errorWord 0x02 e) n))

/-- R112: `SETDT` writes the seven codes in one transaction, the cached halt flag ORed into the first; a byte whose
field is outside its unit's range is free and the others are not; the yearday operand decides nothing; no state of
the codec changes, also when the write fails. It contains the spec's own decisions D15, D22 and D25. -/
def Obligations.SetdtEncodesAndWrites : Prop :=
  ∀ (s : State) (year : Half) (month day hour minute second weekday : Byte),
    ∃ c0 b1 b2 b3 b4 b5 b6 : Byte,
      (second.toNat ≤ 99 → c0 = bcdCode second.toNat) ∧
      (minute.toNat ≤ 99 → b1 = bcdCode minute.toNat) ∧
      (hour.toNat ≤ 99 → b2 = bcdCode hour.toNat) ∧
      (weekday.toNat + s.ws.toNat ≤ 99 → b3 = bcdCode (weekday.toNat + s.ws.toNat)) ∧
      (day.toNat ≤ 99 → b4 = bcdCode day.toNat) ∧
      (month.toNat ≤ 99 → b5 = bcdCode month.toNat) ∧
      (2000 ≤ year.toNat → year.toNat ≤ 2099 → b6 = bcdCode (year.toNat - 2000)) ∧
      ∀ yearday : Half, let i := Instr.setdt year month day hour minute second weekday yearday
        let buf := [c0 ||| (if s.halt then 0x80 else 0x00), b1, b2, b3, b4, b5, b6]
        encode i = 0x11#8 ++ year ++ month ++ day ++ hour ++ minute ++ second ++ weekday ++ yearday ++ 0x00#8 ∧
        (∀ r, busAnswerAt s 0 = .success r →
          ∃ n, exec i s = .next (afterOne s ⟨.write, s.addr, 0, 7, buf, .ok⟩ okEmpty n)) ∧
        (∀ e, busAnswerAt s 0 = .failure e →
          ∃ n, exec i s = .next (afterOne s ⟨.write, s.addr, 0, 7, buf, .failed e⟩ (errorWord 0x02 e) n))

/-- R113: what `SETDT` writes, `GETDT` reads back, under the same offset unchanged and under another offset with
the weekday shifted modulo 7. The spec derives R113. -/
def Obligations.DatetimeRoundTrip : Prop :=
  ∀ (s s' : State) (year : Half) (month day hour minute second weekday : Byte) (yearday : Half) (r : TimeRegs),
    2000 ≤ year.toNat → year.toNat ≤ 2099 → month.toNat ≤ 99 → day.toNat ≤ 99 → hour.toNat ≤ 99 →
    minute.toNat ≤ 99 → second.toNat ≤ 79 → weekday.toNat ≤ 6 → s.ws.toNat ≤ 6 → s'.ws.toNat ≤ 6 →
    busAnswerAt s 0 = .success r →
    ∃ b : TimeRegs,
      (∃ n, exec (.setdt year month day hour minute second weekday yearday) s =
        .next (afterOne s
          ⟨.write, s.addr, 0, 7, [b.seconds, b.minutes, b.hours, b.weekday, b.day, b.month, b.year], .ok⟩
          okEmpty n)) ∧
      (busAnswerAt s' 0 = .success b →
        ∃ (wd : Nat) (yd : Half) (n : Nat), IsMod7 ((weekday.toNat : Int) + s.ws.toNat - s'.ws.toNat) wd ∧
          (s'.ws = s.ws → wd = weekday.toNat) ∧
          exec .getdt s' = .next { afterOne s' (readOk s' b)
              (okDateTime year month day hour minute second (.ofNat 8 wd) yd) n with halt := s.halt })

/-- R300, R302: `SETDT` issues one T2 write at `ADDR`; bit 7 of its first byte is the cached flag, or 1 for a second of
80 to 99 whatever the flag is; the flag itself stays. The spec derives R302; that a write which failed or was never
answered is on record with its bytes is log entry 15. -/
def Obligations.SetdtWritesTheCachedHaltFlag : Prop :=
  ∀ (s : State) (year : Half) (month day hour minute second weekday : Byte) (yearday : Half),
    second.toNat ≤ 99 →
    ∃ (t : State) (e : BusEvent) (b0 : Byte) (more : List Byte),
      exec (.setdt year month day hour minute second weekday yearday) s = .next t ∧
      t.events = s.events ++ [e] ∧ e.shape = shapeT2 ∧ e.device = s.addr ∧ e.bytes = b0 :: more ∧ more.length = 6 ∧
      b0.getLsbD 7 = (s.halt || decide (80 ≤ second.toNat)) ∧ t.halt = s.halt

/-! ### Weekday (41_weekday) -/

/-- R143. -/
def Obligations.GetwsAnswersTheOffset : Prop :=
  encode .getws = 0x200000000000000000000000 ∧ ∀ s : State, Answers .getws s (okByte (.ofNat 8 s.ws.toNat))

/-- R141: `SETWS` stores 0 to 6; any other operand is `INVALID_ARGUMENT 0x01` and stores nothing. -/
def Obligations.SetwsStoresOrRejects : Prop :=
  ∀ (s : State) (a : Byte), encode (.setws a) = 0x21#8 ++ a ++ 0#80 ∧
    (a.toNat ≤ 6 → exec (.setws a) s =
      .next { s with ws := .ofNat 3 a.toNat, responses := s.responses ++ [okEmpty] }) ∧
    (7 ≤ a.toNat → exec (.setws a) s = .next { s with responses := s.responses ++ [errorWord 0x01 0x01] })

/-- R144, R140: `WDENC` answers the BCD code of the sum up to 99 and some byte above. The command is the spec's own
addition (D18); the open value above 99 is D15. -/
def Obligations.WdencAddsAndEncodes : Prop :=
  ∀ (s : State) (a b : Byte), encode (.wdenc a b) = 0x22#8 ++ a ++ b ++ 0#72 ∧
    (a.toNat + b.toNat ≤ 99 → Answers (.wdenc a b) s (okByte (bcdCode (a.toNat + b.toNat)))) ∧
    (∃ v, Answers (.wdenc a b) s (okByte v))

/-- R145, R142: `WDDEC` answers `mod7` of the decoded byte less the operand offset, for every byte and offset. The
order of decoding and subtraction is the spec's own decision D10, the command D18. -/
def Obligations.WddecDecodesThenSubtracts : Prop :=
  ∀ (s : State) (a b : Byte), encode (.wddec a b) = 0x23#8 ++ a ++ b ++ 0#72 ∧
    ∃ r, IsMod7 ((bcdValue a : Int) - b.toNat) r ∧ Answers (.wddec a b) s (okByte (.ofNat 8 r))

/-- R146: decoding what was encoded gives the weekday back, shifted by the difference of two offsets. The spec
derives R146. -/
def Obligations.WeekdayRoundTrip : Prop :=
  ∀ (s s' : State) (wd ws ws' : Byte), wd.toNat + ws.toNat ≤ 99 →
    ∃ (c : Byte) (r : Nat), Answers (.wdenc wd ws) s (okByte c) ∧
      IsMod7 ((wd.toNat : Int) + ws.toNat - ws'.toNat) r ∧ Answers (.wddec c ws') s' (okByte (.ofNat 8 r)) ∧
      (ws' = ws → IsMod7 wd.toNat r ∧ (wd.toNat ≤ 6 → r = wd.toNat))

/-! ### BCD (42_bcd_codec) -/

/-- R162, R160. The free value above 99 is the spec's own decision D15, log entry 10. -/
def Obligations.D2bAnswersTheCode : Prop :=
  ∀ (s : State) (a : Byte), encode (.d2b a) = 0x30#8 ++ a ++ 0#80 ∧
    (a.toNat ≤ 99 → Answers (.d2b a) s (okByte (bcdCode a.toNat))) ∧ (∃ v, Answers (.d2b a) s (okByte v))

/-- R163, R161: the decoder is total; its value is at most 165, so it fits the response field. -/
def Obligations.B2dAnswersTheValue : Prop :=
  ∀ (s : State) (a : Byte), encode (.b2d a) = 0x31#8 ++ a ++ 0#80 ∧ bcdValue a ≤ 165 ∧
    Answers (.b2d a) s (okByte (.ofNat 8 (bcdValue a)))

/-- R164 (a) to (g), of the units, whatever draw stands for an unspecified code. The spec derives (c) to (g) of
R164. -/
def Obligations.BcdLaws : Prop :=
  (∀ k v, v ≤ 99 → b2d (d2b k v) = v) ∧
  (∀ k (b : Byte), (b.extractLsb' 4 4).toNat ≤ 9 → (b.extractLsb' 0 4).toNat ≤ 9 →
    d2b k (b2d b) = b ∧ ∃ v ≤ 99, d2b k v = b) ∧
  ((List.range 256).countP (fun n => n / 16 ≤ 9 ∧ n % 16 ≤ 9) = 100) ∧
  (∀ j k u v, u < v → v ≤ 99 → (d2b j u).toNat < (d2b k v).toNat ∧ (d2b k v).toNat ≤ 0x99) ∧
  (∀ k v, v ≤ 99 → ((d2b k v).getLsbD 7 = false ↔ v ≤ 79) ∧
    (80 ≤ v → 0x80 ≤ (d2b k v).toNat ∧ (d2b k v).toNat ≤ 0x99)) ∧
  (b2d 0x0A = 10 ∧ b2d 0x10 = 10 ∧ ∀ k, d2b k (b2d 0x0A) = 0x10) ∧
  (∀ b : Byte, b2d (b &&& 0x7F) ≤ 85) ∧
  (∀ k v, v ≤ 9 → (d2b k v).toNat = v) ∧ (∀ b : Byte, b.toNat ≤ 9 → b2d b = b.toNat)

/-! ### Calendar (43_calendar) -/

/-- R183, R180: the formula on the full year, for every year; the year since 2000 gives the same answer. -/
def Obligations.IsleapAnswersTheFormula : Prop :=
  ∀ (s : State) (y : Half), encode (.isleap y) = 0x40#8 ++ y ++ 0#72 ∧
    Answers (.isleap y) s (okByte (if y.toNat % 4 = 0 then 1 else 0)) ∧
    (y.toNat % 4 = 0 ↔ y.extractLsb' 0 2 = 0#2) ∧ (y.toNat % 4 = 0 ↔ ((y.toNat : Int) - 2000) % 4 = 0)

/-- R184, R182, with the table of R181: the sum for a month of 1 to 12, some value otherwise. The threshold of the leap
day is the spec's own decision D17 (log entry 13), the free value D16 (log entry 10). -/
def Obligations.DoyAnswersTheDayNumber : Prop :=
  ∀ (s : State) (y : Half) (m d : Byte), encode (.doy y m d) = 0x41#8 ++ y ++ m ++ d ++ 0#56 ∧
    (1 ≤ m.toNat → m.toNat ≤ 12 →
      dayNumber y.toNat m.toNat d.toNat ≤ 590 ∧
      Answers (.doy y m d) s (okHalf (.ofNat 16 (dayNumber y.toNat m.toNat d.toNat)))) ∧
    (∃ v, Answers (.doy y m d) s (okHalf v))

/-- R185 (a) to (f): which values the yearday takes over the dates of a common and of a leap year. The spec derives
R185; the threshold is its own decision D17. -/
def Obligations.YeardayOfRealDates : Prop :=
  (∀ k (y : Half) (m d : Byte), 1 ≤ m.toNat → m.toNat ≤ 12 → y.toNat % 4 ≠ 0 ∨ m.toNat = 1 →
    (doy k y m d).toNat = daysBefore m.toNat + d.toNat) ∧
  (∀ k (y : Half) (m d : Byte), 2 ≤ m.toNat → m.toNat ≤ 12 → y.toNat % 4 = 0 →
    (doy k y m d).toNat = daysBefore m.toNat + d.toNat + 1) ∧
  (∀ k (y : Half), y.toNat % 4 = 0 →
    doy k y 1 31 = 31 ∧ doy k y 2 1 = 33 ∧ doy k y 2 29 = 61 ∧ doy k y 3 1 = 61 ∧ doy k y 12 31 = 366 ∧
    (∀ m d : Byte, ValidDate y.toNat m.toNat d.toNat → doy k y m d ≠ 32) ∧
    (∀ n, 61 ≤ n → n ≤ 366 → ∃ m d : Byte, 3 ≤ m.toNat ∧ ValidDate y.toNat m.toNat d.toNat ∧
      (doy k y m d).toNat = n)) ∧
  (∀ k (y : Half), y.toNat % 4 ≠ 0 → doy k y 12 31 = 365 ∧
    ∀ n, 1 ≤ n → n ≤ 365 → ∃ m d : Byte, (ValidDate y.toNat m.toNat d.toNat ∧ (doy k y m d).toNat = n) ∧
      ∀ m' d' : Byte, ValidDate y.toNat m'.toNat d'.toNat → (doy k y m' d').toNat = n → m' = m ∧ d' = d) ∧
  (∀ k (y : Half) (m d : Byte), ValidDate y.toNat m.toNat d.toNat →
    1 ≤ (doy k y m d).toNat ∧ (doy k y m d).toNat ≤ 366 ∧ (y.toNat % 4 ≠ 0 → (doy k y m d).toNat ≤ 365)) ∧
  (∀ k, doy k 2023 5 29 = 149 ∧ doy k 2024 3 26 = 86)

/-! ### Halt flag (44_halt) -/

/-- R200 to R203, of the units. -/
def Obligations.HaltUnitLaws : Prop :=
  (∀ b : Byte, haltBit b = decide (128 ≤ b.toNat) ∧ (secField b).toNat = b.toNat % 128) ∧
  (∀ (s : Byte) (h : Bool), haltPack s h = s ||| (if h then 0x80 else 0x00)) ∧
  (∀ (s : Byte) (h : Bool), s.toNat < 128 → haltBit (haltPack s h) = h ∧ secField (haltPack s h) = s) ∧
  (∀ (s : Byte) (h : Bool), 128 ≤ s.toNat → haltPack s h = s) ∧
  (∀ (b : Byte) (v : Bool), haltSet b v = if v then b ||| 0x80 else b &&& 0x7F) ∧
  (∀ (b : Byte) (v : Bool), haltBit (haltSet b v) = v ∧ secField (haltSet b v) = secField b)

/-- R204. That it answers from the cache is the spec's own decision D12. -/
def Obligations.GethaltAnswersTheCache : Prop :=
  encode .gethalt = 0x500000000000000000000000 ∧
  ∀ s : State, Answers .gethalt s (okByte (if s.halt then 1 else 0))

/-- R205: `SETHALT` reads the seconds byte, writes it back with bit 7 as requested, and caches the requested value
only after the write succeeded; a failed read issues no write. The order is the spec's own decision D14, the
coercion D24. -/
def Obligations.SethaltReadsModifiesWritesCaches : Prop :=
  ∀ (s : State) (a : Byte), encode (.sethalt a) = 0x51#8 ++ a ++ 0#80 ∧
    (∀ r r', busAnswerAt s 0 = .success r → busAnswerAt s 1 = .success r' →
      ∃ n, exec (.sethalt a) s = .next { s with
        halt := decide (a ≠ 0), bus := s.bus.tail.tail, draws := n, responses := s.responses ++ [okEmpty],
        events := s.events ++ [⟨.read, s.addr, 0, 1, [r.seconds], .ok⟩,
          ⟨.write, s.addr, 0, 1, [if a = 0 then r.seconds &&& 0x7F else r.seconds ||| 0x80], .ok⟩] }) ∧
    (∀ e, busAnswerAt s 0 = .failure e →
      ∃ n, exec (.sethalt a) s =
        .next (afterOne s ⟨.read, s.addr, 0, 1, [], .failed e⟩ (errorWord 0x02 e) n)) ∧
    (∀ r e, busAnswerAt s 0 = .success r → busAnswerAt s 1 = .failure e →
      ∃ n, exec (.sethalt a) s = .next { s with
        bus := s.bus.tail.tail, draws := n, responses := s.responses ++ [errorWord 0x02 e],
        events := s.events ++ [⟨.read, s.addr, 0, 1, [r.seconds], .ok⟩,
          ⟨.write, s.addr, 0, 1, [if a = 0 then r.seconds &&& 0x7F else r.seconds ||| 0x80], .failed e⟩] })

/-! ### Square wave (45_square_wave) -/

/-- R222, R220, R261: `SQW` writes the table's byte to offset 7; an illegal rate is `INVALID_ARGUMENT 0x02`, with no
transaction, whatever the bus would have done. That a level of 2 to 255 packs as 1 is the spec's own decision D20
(log entry 13). -/
def Obligations.SqwValidatesPacksWrites : Prop :=
  ∀ (s : State) (a b : Byte), encode (.sqw a b) = 0x60#8 ++ a ++ b ++ 0#72 ∧
    (∀ row ∈ controlTable, a = row.1 → let c := if b = 0 then row.2.1 else row.2.2
      (∀ r, busAnswerAt s 0 = .success r →
        ∃ n, exec (.sqw a b) s = .next (afterOne s ⟨.write, s.addr, 7, 1, [c], .ok⟩ okEmpty n)) ∧
      (∀ e, busAnswerAt s 0 = .failure e →
        ∃ n, exec (.sqw a b) s =
          .next (afterOne s ⟨.write, s.addr, 7, 1, [c], .failed e⟩ (errorWord 0x02 e) n))) ∧
    ((∀ row ∈ controlTable, a ≠ row.1) →
      exec (.sqw a b) s = .next { s with responses := s.responses ++ [errorWord 0x01 0x02] })

/-- R223, R220. The command is the spec's own addition (D18), the coercion of the level D20. -/
def Obligations.CtlpkValidatesAndPacks : Prop :=
  ∀ (s : State) (a b : Byte), encode (.ctlpk a b) = 0x61#8 ++ a ++ b ++ 0#72 ∧
    (∀ row ∈ controlTable, a = row.1 → Answers (.ctlpk a b) s (okByte (if b = 0 then row.2.1 else row.2.2))) ∧
    ((∀ row ∈ controlTable, a ≠ row.1) → Answers (.ctlpk a b) s (errorWord 0x01 0x02))

/-- R223: `CTLPK a, b` answers `OK c` exactly when `SQW a, b` writes the byte `c`. The command is the spec's own
addition (D18). -/
def Obligations.CtlpkPredictsSqw : Prop :=
  ∀ (s s' : State) (a b c : Byte) (r : TimeRegs), busAnswerAt s' 0 = .success r →
    (Answers (.ctlpk a b) s (okByte c) ↔
      ∃ n, exec (.sqw a b) s' = .next (afterOne s' ⟨.write, s'.addr, 7, 1, [c], .ok⟩ okEmpty n))

/-- R225, R224: the four fields of the byte, the other bits ignored. The unit and the command are the spec's own
addition (D18). -/
def Obligations.CtlupkUnpacks : Prop :=
  ∀ (s : State) (a : Byte), encode (.ctlupk a) = 0x62#8 ++ a ++ 0#80 ∧
    ∃ rate : Byte,
      (a.toNat / 16 % 2 = 0 → rate = 0) ∧
      (a.toNat / 16 % 2 = 1 → (a.toNat % 4 = 0 → rate = 1) ∧ (a.toNat % 4 = 1 → rate = 4) ∧
        (a.toNat % 4 = 2 → rate = 8) ∧ (a.toNat % 4 = 3 → rate = 32)) ∧
      Answers (.ctlupk a) s
        (okControl (.ofNat 8 (a.toNat / 128)) (.ofNat 8 (a.toNat / 16 % 2)) (.ofNat 8 (a.toNat % 4)) rate)

/-- R226: unpacking a packed byte gives the settings back; packing an unpacked byte gives its named bits back,
those of a disabled configuration down to the level; and no two of the ten settings share a byte. The spec derives
R226. -/
def Obligations.ControlByteRoundTrip : Prop :=
  (∀ (s s' : State) (rate level : Byte) (rs : Byte),
    (rate, rs) ∈ ([(0, 0), (1, 0), (4, 1), (8, 2), (32, 3)] : List (Byte × Byte)) →
    ∃ c, Answers (.ctlpk rate level) s (okByte c) ∧
      Answers (.ctlupk c) s' (okControl (if level = 0 then 0 else 1) (if rate = 0 then 0 else 1) rs rate)) ∧
  (∀ (s s' : State) (b : Byte), ∃ level enable rs rate : Byte,
    Answers (.ctlupk b) s (okControl level enable rs rate) ∧
    (enable = 1 → Answers (.ctlpk rate level) s' (okByte (b &&& 0x93))) ∧
    (enable = 0 → Answers (.ctlpk rate level) s' (okByte (b &&& 0x80))) ∧ (enable = 0 ∨ enable = 1)) ∧
  (∀ (s : State) (rate level rate' level' c : Byte), level.toNat ≤ 1 → level'.toNat ≤ 1 →
    Answers (.ctlpk rate level) s (okByte c) → Answers (.ctlpk rate' level') s (okByte c) →
    rate = rate' ∧ level = level')
end

