-- ==== Sys2Proof/Laws/State.lean ====
section
/-! SUPPORT. One lemma per field per named update of the state: what each update writes, and that it leaves every
other field alone. -/

namespace Sys2Proof.Machine

variable (s : State)

/-! ### `setWs` -/
@[simp] theorem setWs_ws (v : BitVec 3) : (setWs v s).ws = v := rfl
@[simp] theorem setWs_halt (v : BitVec 3) : (setWs v s).halt = s.halt := rfl
@[simp] theorem setWs_addr (v : BitVec 3) : (setWs v s).addr = s.addr := rfl
@[simp] theorem setWs_blocked (v : BitVec 3) : (setWs v s).blocked = s.blocked := rfl
@[simp] theorem setWs_commands (v : BitVec 3) : (setWs v s).commands = s.commands := rfl
@[simp] theorem setWs_responses (v : BitVec 3) : (setWs v s).responses = s.responses := rfl
@[simp] theorem setWs_bus (v : BitVec 3) : (setWs v s).bus = s.bus := rfl
@[simp] theorem setWs_events (v : BitVec 3) : (setWs v s).events = s.events := rfl
@[simp] theorem setWs_draws (v : BitVec 3) : (setWs v s).draws = s.draws := rfl

/-! ### `setHalt` -/
@[simp] theorem setHalt_ws (v : Bool) : (setHalt v s).ws = s.ws := rfl
@[simp] theorem setHalt_halt (v : Bool) : (setHalt v s).halt = v := rfl
@[simp] theorem setHalt_addr (v : Bool) : (setHalt v s).addr = s.addr := rfl
@[simp] theorem setHalt_blocked (v : Bool) : (setHalt v s).blocked = s.blocked := rfl
@[simp] theorem setHalt_commands (v : Bool) : (setHalt v s).commands = s.commands := rfl
@[simp] theorem setHalt_responses (v : Bool) : (setHalt v s).responses = s.responses := rfl
@[simp] theorem setHalt_bus (v : Bool) : (setHalt v s).bus = s.bus := rfl
@[simp] theorem setHalt_events (v : Bool) : (setHalt v s).events = s.events := rfl
@[simp] theorem setHalt_draws (v : Bool) : (setHalt v s).draws = s.draws := rfl

/-! ### `spendDraws` -/
@[simp] theorem spendDraws_ws (n : Nat) : (spendDraws n s).ws = s.ws := rfl
@[simp] theorem spendDraws_halt (n : Nat) : (spendDraws n s).halt = s.halt := rfl
@[simp] theorem spendDraws_addr (n : Nat) : (spendDraws n s).addr = s.addr := rfl
@[simp] theorem spendDraws_blocked (n : Nat) : (spendDraws n s).blocked = s.blocked := rfl
@[simp] theorem spendDraws_commands (n : Nat) : (spendDraws n s).commands = s.commands := rfl
@[simp] theorem spendDraws_responses (n : Nat) : (spendDraws n s).responses = s.responses := rfl
@[simp] theorem spendDraws_bus (n : Nat) : (spendDraws n s).bus = s.bus := rfl
@[simp] theorem spendDraws_events (n : Nat) : (spendDraws n s).events = s.events := rfl
@[simp] theorem spendDraws_draws (n : Nat) : (spendDraws n s).draws = s.draws + n := rfl

/-! ### `respond` -/
@[simp] theorem respond_ws (r : Response) : (respond r s).ws = s.ws := rfl
@[simp] theorem respond_halt (r : Response) : (respond r s).halt = s.halt := rfl
@[simp] theorem respond_addr (r : Response) : (respond r s).addr = s.addr := rfl
@[simp] theorem respond_blocked (r : Response) : (respond r s).blocked = s.blocked := rfl
@[simp] theorem respond_commands (r : Response) : (respond r s).commands = s.commands := rfl
@[simp] theorem respond_responses (r : Response) : (respond r s).responses = s.responses ++ [encodeResponse r] := rfl
@[simp] theorem respond_bus (r : Response) : (respond r s).bus = s.bus := rfl
@[simp] theorem respond_events (r : Response) : (respond r s).events = s.events := rfl
@[simp] theorem respond_draws (r : Response) : (respond r s).draws = s.draws := rfl

/-! ### `raiseError` -/
@[simp] theorem raiseError_ws (x : ErrorKind) : (raiseError x s).ws = s.ws := rfl
@[simp] theorem raiseError_halt (x : ErrorKind) : (raiseError x s).halt = s.halt := rfl
@[simp] theorem raiseError_addr (x : ErrorKind) : (raiseError x s).addr = s.addr := rfl
@[simp] theorem raiseError_blocked (x : ErrorKind) : (raiseError x s).blocked = s.blocked := rfl
@[simp] theorem raiseError_commands (x : ErrorKind) : (raiseError x s).commands = s.commands := rfl
@[simp] theorem raiseError_responses (x : ErrorKind) : (raiseError x s).responses = s.responses ++ [encodeResponse (.error x)] := rfl
@[simp] theorem raiseError_bus (x : ErrorKind) : (raiseError x s).bus = s.bus := rfl
@[simp] theorem raiseError_events (x : ErrorKind) : (raiseError x s).events = s.events := rfl
@[simp] theorem raiseError_draws (x : ErrorKind) : (raiseError x s).draws = s.draws := rfl

/-! ### `popAnswer` -/
@[simp] theorem popAnswer_ws : (popAnswer s).ws = s.ws := rfl
@[simp] theorem popAnswer_halt : (popAnswer s).halt = s.halt := rfl
@[simp] theorem popAnswer_addr : (popAnswer s).addr = s.addr := rfl
@[simp] theorem popAnswer_blocked : (popAnswer s).blocked = s.blocked := rfl
@[simp] theorem popAnswer_commands : (popAnswer s).commands = s.commands := rfl
@[simp] theorem popAnswer_responses : (popAnswer s).responses = s.responses := rfl
@[simp] theorem popAnswer_bus : (popAnswer s).bus = s.bus.tail := rfl
@[simp] theorem popAnswer_events : (popAnswer s).events = s.events := rfl
@[simp] theorem popAnswer_draws : (popAnswer s).draws = s.draws + 1 := rfl

/-! ### `pushEvent` -/
@[simp] theorem pushEvent_ws (e : BusEvent) : (pushEvent e s).ws = s.ws := rfl
@[simp] theorem pushEvent_halt (e : BusEvent) : (pushEvent e s).halt = s.halt := rfl
@[simp] theorem pushEvent_addr (e : BusEvent) : (pushEvent e s).addr = s.addr := rfl
@[simp] theorem pushEvent_blocked (e : BusEvent) : (pushEvent e s).blocked = s.blocked := rfl
@[simp] theorem pushEvent_commands (e : BusEvent) : (pushEvent e s).commands = s.commands := rfl
@[simp] theorem pushEvent_responses (e : BusEvent) : (pushEvent e s).responses = s.responses := rfl
@[simp] theorem pushEvent_bus (e : BusEvent) : (pushEvent e s).bus = s.bus := rfl
@[simp] theorem pushEvent_events (e : BusEvent) : (pushEvent e s).events = s.events ++ [e] := rfl
@[simp] theorem pushEvent_draws (e : BusEvent) : (pushEvent e s).draws = s.draws := rfl

/-! ### `block` -/
@[simp] theorem block_ws : (block s).ws = s.ws := rfl
@[simp] theorem block_halt : (block s).halt = s.halt := rfl
@[simp] theorem block_addr : (block s).addr = s.addr := rfl
@[simp] theorem block_blocked : (block s).blocked = true := rfl
@[simp] theorem block_commands : (block s).commands = s.commands := rfl
@[simp] theorem block_responses : (block s).responses = s.responses := rfl
@[simp] theorem block_bus : (block s).bus = s.bus := rfl
@[simp] theorem block_events : (block s).events = s.events := rfl
@[simp] theorem block_draws : (block s).draws = s.draws := rfl

/-! ### `presentCommand` -/
@[simp] theorem presentCommand_ws (w : Word) : (presentCommand w s).ws = s.ws := rfl
@[simp] theorem presentCommand_halt (w : Word) : (presentCommand w s).halt = s.halt := rfl
@[simp] theorem presentCommand_addr (w : Word) : (presentCommand w s).addr = s.addr := rfl
@[simp] theorem presentCommand_blocked (w : Word) : (presentCommand w s).blocked = false := rfl
@[simp] theorem presentCommand_commands (w : Word) : (presentCommand w s).commands = w :: s.commands := rfl
@[simp] theorem presentCommand_responses (w : Word) : (presentCommand w s).responses = s.responses := rfl
@[simp] theorem presentCommand_bus (w : Word) : (presentCommand w s).bus = s.bus := rfl
@[simp] theorem presentCommand_events (w : Word) : (presentCommand w s).events = s.events := rfl
@[simp] theorem presentCommand_draws (w : Word) : (presentCommand w s).draws = s.draws := rfl

end Sys2Proof.Machine
end

