-- ==== Sys2Proof/Laws/Units.lean ====
section
/-! SUPPORT. One spec lemma per unit: its value in the terms of Safety.lean, on all operands for which the spec gives
one. Later proofs cite these and do not unfold the units. -/

namespace Sys2Proof.Machine

/-! ### Bytes -/

theorem shr4_toNat (b : Byte) : (b >>> 4).toNat = b.toNat / 16 := by
  simp [BitVec.toNat_ushiftRight, Nat.shiftRight_eq_div_pow]

theorem low4_toNat (b : Byte) : (b &&& 0x0F).toNat = b.toNat % 16 := by
  rw [BitVec.toNat_and]; exact Nat.and_two_pow_sub_one_eq_mod b.toNat 4

theorem low7_toNat (b : Byte) : (b &&& 0x7F).toNat = b.toNat % 128 := by
  rw [BitVec.toNat_and]; exact Nat.and_two_pow_sub_one_eq_mod b.toNat 7

theorem bit7_eq (b : Byte) : b.getLsbD 7 = decide (128 ≤ b.toNat) := by
  have := b.isLt
  rw [BitVec.getLsbD, Nat.testBit_eq_decide_div_mod_eq]
  apply decide_eq_decide.mpr; omega

@[simp] theorem bitByte_true : bitByte true = 1 := rfl
@[simp] theorem bitByte_false : bitByte false = 0 := rfl

theorem requested_eq (a : Byte) : requested a = decide (a ≠ 0) := by
  simp [requested, bne, Bool.beq_eq_decide_eq]

/-! ### BCD (R160, R161) -/

theorem b2d_eq (b : Byte) : b2d b = bcdValue b := by
  unfold b2d bcdValue; rw [shr4_toNat, low4_toNat]; omega

theorem bcdValue_le (b : Byte) : bcdValue b ≤ 165 := by
  have := b.isLt; unfold bcdValue; omega

theorem bcdCode_toNat {v : Nat} (h : v ≤ 99) : (bcdCode v).toNat = v + 6 * (v / 10) := by
  rw [bcdCode, BitVec.toNat_ofNat]; apply Nat.mod_eq_of_lt; omega

theorem bcdValue_bcdCode {v : Nat} (h : v ≤ 99) : bcdValue (bcdCode v) = v := by
  unfold bcdValue; rw [bcdCode_toNat h]; omega

/-- Up to 99 the encoder's OR of the two digits is the sum the spec gives (R160). -/
theorem d2b_of_le {v : Nat} (k : Nat) (h : v ≤ 99) : d2b k v = bcdCode v := by
  have hor : (v / 10) <<< 4 ||| v % 10 = v + 6 * (v / 10) := by
    rw [← Nat.shiftLeft_add_eq_or_of_lt (by omega : v % 10 < 2 ^ 4), Nat.shiftLeft_eq]; omega
  simp [d2b, h, bcdCode, hor]

/-- Above 99 the code is a draw (R160, D15). -/
theorem d2b_of_gt {v : Nat} (k : Nat) (h : 99 < v) : d2b k v = Config.anyU8 k := by
  simp [d2b, Nat.not_le.mpr h]

theorem decField_eq (b : Byte) : decField b = BitVec.ofNat 8 (bcdValue b) := by
  rw [decField, b2d_eq]

theorem decField_toNat (b : Byte) : (decField b).toNat = bcdValue b := by
  have := bcdValue_le b
  rw [decField_eq, BitVec.toNat_ofNat]; apply Nat.mod_eq_of_lt; omega

theorem yearField_eq (b : Byte) : yearField b = BitVec.ofNat 16 (bcdValue b + 2000) := by
  rw [yearField, b2d_eq, yearBase]

theorem yearField_toNat (b : Byte) : (yearField b).toNat = bcdValue b + 2000 := by
  have := bcdValue_le b
  rw [yearField_eq, BitVec.toNat_ofNat]; apply Nat.mod_eq_of_lt; omega

theorem yearCode_of_range {y : Half} (k : Nat) (h : 2000 ≤ y.toNat) (h' : y.toNat ≤ 2099) :
    yearCode k y = bcdCode (y.toNat - 2000) := by
  have : y.toNat - 2000 ≤ 99 := by omega
  simp [yearCode, yearBase, h, h', d2b_of_le k this]

/-! ### Weekday (R9, R140, R142) -/

theorem isMod7_mod7 (z : Int) : IsMod7 z (mod7 z) := by
  refine ⟨?_, z / 7, ?_⟩ <;> unfold mod7 <;> omega

/-- R9: the remainder is unique. -/
theorem IsMod7.eq {z : Int} {r r' : Nat} (h : IsMod7 z r) (h' : IsMod7 z r') : r = r' := by
  obtain ⟨hr, q, hq⟩ := h
  obtain ⟨hr', q', hq'⟩ := h'
  omega

theorem wdDec_isMod7 (b : Byte) (ws : Nat) : IsMod7 ((bcdValue b : Int) - ws) (wdDec b ws) := by
  rw [wdDec, b2d_eq]; exact isMod7_mod7 _

theorem wdEnc_of_le {wd ws : Nat} (k : Nat) (h : wd + ws ≤ 99) : wdEnc k wd ws = bcdCode (wd + ws) :=
  d2b_of_le k h

/-! ### Calendar (R180 to R182) -/

theorem isLeap_eq (y : Half) : isLeap y = decide (y.toNat % 4 = 0) := rfl

theorem cumDays_eq {m : Nat} (h : 1 ≤ m) (h' : m ≤ 12) : cumDays m = daysBefore m := by
  interval_cases m <;> rfl

theorem daysBefore_le (m : Nat) : daysBefore m ≤ 334 := by
  unfold daysBefore; split <;> decide

/-- For a month of the table the accumulator is the spec's sum, which fits 16 bits (R182). -/
theorem doy_toNat {y : Half} {m d : Byte} (k : Nat) (h : 1 ≤ m.toNat) (h' : m.toNat ≤ 12) :
    (doy k y m d).toNat = dayNumber y.toNat m.toNat d.toNat := by
  have hd := d.isLt
  have hb := daysBefore_le m.toNat
  have hm : leapAdjFromMonth ≤ m.toNat ∧ isLeap y = true ↔ 2 ≤ m.toNat ∧ y.toNat % 4 = 0 := by
    simp [leapAdjFromMonth, isLeap_eq]
  rw [doy, if_pos ⟨h, h'⟩, cumDays_eq h h', BitVec.toNat_ofNat, dayNumber]
  simp only [hm]
  split <;> omega

/-! ### Halt flag (R200 to R203) -/

theorem haltPack_eq (s : Byte) (h : Bool) : haltPack s h = s ||| (if h then 0x80 else 0x00) := by
  cases h <;> simp [haltPack]

/-- The byte `SETHALT a` writes back (R203, R205). -/
theorem haltSet_requested (b a : Byte) :
    haltSet b (requested a) = if a = 0 then b &&& 0x7F else b ||| 0x80 := by
  rw [requested_eq]; by_cases h : a = 0 <;> simp [h, haltSet]

/-! ### Control byte (R220, R221, R224) -/

theorem legalRate_iff (a : Byte) : legalRate a = true ↔ a ∈ ([0, 1, 4, 8, 32] : List Byte) := by
  simp [legalRate, legalRates]

/-- The packer reproduces the ten outputs of R220. -/
theorem ctrlPack_table {a : Byte} (b : Byte) {row : Byte × Byte × Byte} (h : row ∈ controlTable) (ha : a = row.1) :
    ctrlPack a b = if b = 0 then row.2.1 else row.2.2 := by
  subst ha
  have hb : ∀ r : Byte, ctrlPack r b = if b = 0 then ctrlPack r 0 else ctrlPack r 1 := by
    intro r
    by_cases h0 : b = 0
    · simp [h0]
    · have : requested b = requested 1 := by rw [requested_eq, requested_eq]; simpa using h0
      rw [if_neg h0, ctrlPack, ctrlPack, this]
  rw [hb]
  simp only [controlTable, List.mem_cons, List.not_mem_nil, or_false] at h
  rcases h with rfl | rfl | rfl | rfl | rfl <;> rfl

theorem legalRate_iff_table (a : Byte) : legalRate a = true ↔ ∃ row ∈ controlTable, a = row.1 := by
  rw [legalRate_iff]; simp [controlTable]

end Sys2Proof.Machine
end

