-- ==== Sys2Proof/Laws/Ops.lean ====
section
/-! SUPPORT. What each shared operation can do, said once: the host port, the two bus primitives, the rest of a
command after a transaction, and the datetime read. -/

namespace Sys2Proof.Machine

/-! ### Host port -/

theorem takeCommand_none_iff (s : State) : takeCommand s = none ↔ s.blocked = true ∨ s.commands = [] := by
  unfold takeCommand; split
  · simp [*]
  · split <;> simp_all

theorem takeCommand_some_iff (s t : State) (w : Word) :
    takeCommand s = some (w, t) ↔
      s.blocked = false ∧ ∃ rest, s.commands = w :: rest ∧ t = { s with commands := rest } := by
  unfold takeCommand
  cases hb : s.blocked
  · cases hc : s.commands with
    | nil => simp
    | cons v rest =>
      constructor
      · rintro ⟨⟩; exact ⟨rfl, rest, rfl, rfl⟩
      · rintro ⟨-, rest', h, rfl⟩; cases h; rfl
  · simp

/-- What `withFetchWord` is for: the word it presents is the one taken next, and nothing else has changed. -/
theorem takeCommand_presentCommand (s : State) (w : Word) :
    takeCommand (presentCommand w s) = some (w, { s with blocked := false }) := rfl

theorem encodeResponse_error (x : ErrorKind) :
    encodeResponse (.error x) = errorWord (errorStatus x) (errorInfo x) := rfl

/-! ### Bus port -/

/-- The answer after one transaction is the second one from before it. -/
theorem busAnswerAt_after (s s' : State) (i : Nat) (hb : s'.bus = s.bus.tail) (hd : s'.draws = s.draws + 1) :
    busAnswerAt s' i = busAnswerAt s (i + 1) := by
  unfold busAnswerAt
  have : s.bus.tail[i]? = s.bus[i + 1]? := by cases s.bus <;> simp
  rw [hb, hd, this, Nat.add_right_comm, Nat.add_assoc]

theorem busAnswerAt_mem {s : State} {i : Nat} (h : i < s.bus.length) : busAnswerAt s i ∈ s.bus := by
  unfold busAnswerAt
  rw [List.getElem?_eq_getElem h]
  exact List.getElem_mem h

variable {s : State} {off n : Byte} {buf : List Byte} {r : TimeRegs} {e : Byte}

theorem memRead_success (h : busAnswerAt s 0 = .success r) :
    memRead off n s =
      .done r (pushEvent ⟨.read, s.addr, off, n, replyBytes off n r, .ok⟩ (popAnswer s)) := by
  simp [memRead, h]

theorem memRead_failure (h : busAnswerAt s 0 = .failure e) :
    memRead off n s = .failed e (pushEvent ⟨.read, s.addr, off, n, [], .failed e⟩ (popAnswer s)) := by
  simp [memRead, h]

theorem memRead_silence (h : busAnswerAt s 0 = .silence) :
    memRead off n s = .silent (block (pushEvent ⟨.read, s.addr, off, n, [], .unanswered⟩ (popAnswer s))) := by
  simp [memRead, h]

theorem memWrite_success (h : busAnswerAt s 0 = .success r) :
    memWrite off buf s =
      .done r (pushEvent ⟨.write, s.addr, off, .ofNat 8 buf.length, buf, .ok⟩ (popAnswer s)) := by
  simp [memWrite, h]

theorem memWrite_failure (h : busAnswerAt s 0 = .failure e) :
    memWrite off buf s =
      .failed e (pushEvent ⟨.write, s.addr, off, .ofNat 8 buf.length, buf, .failed e⟩ (popAnswer s)) := by
  simp [memWrite, h]

theorem memWrite_silence (h : busAnswerAt s 0 = .silence) :
    memWrite off buf s =
      .silent (block (pushEvent ⟨.write, s.addr, off, .ofNat 8 buf.length, buf, .unanswered⟩ (popAnswer s))) := by
  simp [memWrite, h]

/-- A read ends in one of three ways. -/
theorem memRead_cases (off n : Byte) (s : State) :
    (∃ r, busAnswerAt s 0 = .success r ∧ memRead off n s =
      .done r (pushEvent ⟨.read, s.addr, off, n, replyBytes off n r, .ok⟩ (popAnswer s))) ∨
    (∃ e, busAnswerAt s 0 = .failure e ∧ memRead off n s =
      .failed e (pushEvent ⟨.read, s.addr, off, n, [], .failed e⟩ (popAnswer s))) ∨
    (busAnswerAt s 0 = .silence ∧ memRead off n s =
      .silent (block (pushEvent ⟨.read, s.addr, off, n, [], .unanswered⟩ (popAnswer s)))) := by
  cases h : busAnswerAt s 0 with
  | success r => exact .inl ⟨r, rfl, memRead_success h⟩
  | failure e => exact .inr (.inl ⟨e, rfl, memRead_failure h⟩)
  | silence => exact .inr (.inr ⟨rfl, memRead_silence h⟩)

/-- A write ends in one of three ways. -/
theorem memWrite_cases (off : Byte) (buf : List Byte) (s : State) :
    (∃ r, busAnswerAt s 0 = .success r ∧ memWrite off buf s =
      .done r (pushEvent ⟨.write, s.addr, off, .ofNat 8 buf.length, buf, .ok⟩ (popAnswer s))) ∨
    (∃ e, busAnswerAt s 0 = .failure e ∧ memWrite off buf s =
      .failed e (pushEvent ⟨.write, s.addr, off, .ofNat 8 buf.length, buf, .failed e⟩ (popAnswer s))) ∨
    (busAnswerAt s 0 = .silence ∧ memWrite off buf s =
      .silent (block (pushEvent ⟨.write, s.addr, off, .ofNat 8 buf.length, buf, .unanswered⟩ (popAnswer s)))) := by
  cases h : busAnswerAt s 0 with
  | success r => exact .inl ⟨r, rfl, memWrite_success h⟩
  | failure e => exact .inr (.inl ⟨e, rfl, memWrite_failure h⟩)
  | silence => exact .inr (.inr ⟨rfl, memWrite_silence h⟩)

@[simp] theorem afterBus_done (r : TimeRegs) (s : State) (go : TimeRegs → State → State) :
    afterBus (.done r s) go = go r s := rfl
@[simp] theorem afterBus_failed (e : Byte) (s : State) (go : TimeRegs → State → State) :
    afterBus (.failed e s) go = raiseError (.busError e) s := rfl
@[simp] theorem afterBus_silent (s : State) (go : TimeRegs → State → State) : afterBus (.silent s) go = s := rfl

/-! ### The datetime read -/

/-- The state a datetime read leaves, field by field, for each answer of the bus. -/
theorem readDateTime_cases (answer : DateTime → Response) (s : State) :
    (∃ r, busAnswerAt s 0 = .success r ∧ readDateTime answer s =
      { s with
        halt := haltBit r.seconds, bus := s.bus.tail, draws := s.draws + 2, events := s.events ++ [readOk s r]
        responses := s.responses ++ [encodeResponse (answer (decodeDateTime (s.draws + 1) s.ws r))] }) ∨
    (∃ e, busAnswerAt s 0 = .failure e ∧ readDateTime answer s =
      { s with
        bus := s.bus.tail, draws := s.draws + 1, events := s.events ++ [readFailed s e]
        responses := s.responses ++ [errorWord 0x02 e] }) ∨
    (busAnswerAt s 0 = .silence ∧ readDateTime answer s =
      { s with
        blocked := true, bus := s.bus.tail, draws := s.draws + 1
        events := s.events ++ [⟨.read, s.addr, 0, 7, [], .unanswered⟩] }) := by
  unfold readDateTime
  rcases memRead_cases 0 7 s with ⟨r, h, hm⟩ | ⟨e, h, hm⟩ | ⟨h, hm⟩
  · exact .inl ⟨r, h, by rw [hm]; rfl⟩
  · exact .inr (.inl ⟨e, h, by rw [hm]; rfl⟩)
  · exact .inr (.inr ⟨h, by rw [hm]; rfl⟩)

/-- The decoded fields in the terms of the spec (R111). -/
theorem decodeDateTime_eq (k : Nat) (ws : BitVec 3) (r : TimeRegs) :
    decodeDateTime k ws r =
      { year := .ofNat 16 (bcdValue r.year + 2000), month := .ofNat 8 (bcdValue r.month)
        day := .ofNat 8 (bcdValue r.day), hour := .ofNat 8 (bcdValue r.hours)
        minute := .ofNat 8 (bcdValue r.minutes), second := .ofNat 8 (bcdValue (r.seconds &&& 0x7F))
        weekday := .ofNat 8 (wdDec r.weekday ws.toNat)
        yearday := doy k (yearField r.year) (decField r.month) (decField r.day) } := by
  simp [decodeDateTime, decField_eq, yearField_eq, secField]

/-- The buffer of `SETDT` as bytes in offset order (R56, R112). -/
theorem timeBytes_encodeDateTime (k : Nat) (ws : BitVec 3) (halt : Bool) (year : Half)
    (month day hour minute second weekday : Byte) :
    timeBytes (encodeDateTime k ws halt year month day hour minute second weekday) =
      [haltPack (d2b k second.toNat) halt, d2b (k + 1) minute.toNat, d2b (k + 2) hour.toNat,
        wdEnc (k + 3) weekday.toNat ws.toNat, d2b (k + 4) day.toNat, d2b (k + 5) month.toNat,
        yearCode (k + 6) year] := rfl

end Sys2Proof.Machine
end

