-- ==== Sys2Proof/Laws/Words.lean ====
section
/-! SUPPORT. Words: cutting fields out of concatenations, and what the encoder's words look like to the decoder.
In `simp` the first three lemmas want both widths as numerals, `extract_append_low (a := 16) (b := 80)`: a word's type
says `96`, and `simp` does not find `16 + 80` in it by itself. -/

namespace Sys2Proof.Machine

theorem extract_append_low {a b : Nat} (x : BitVec a) (y : BitVec b) (start len : Nat) (h : start + len ≤ b) :
    (x ++ y).extractLsb' start len = y.extractLsb' start len := BitVec.extractLsb'_append_eq_of_add_le h

theorem extract_append_high {a b : Nat} (x : BitVec a) (y : BitVec b) (start len : Nat) (h : b ≤ start) :
    (x ++ y).extractLsb' start len = x.extractLsb' (start - b) len := BitVec.extractLsb'_append_eq_of_le h

theorem toNat_append_add {a b : Nat} (x : BitVec a) (y : BitVec b) :
    (x ++ y).toNat = x.toNat * 2 ^ b + y.toNat := by
  rw [BitVec.toNat_append, ← Nat.shiftLeft_add_eq_or_of_lt y.isLt, Nat.shiftLeft_eq]

theorem extract_toNat {n : Nat} (x : BitVec n) (start len : Nat) :
    (x.extractLsb' start len).toNat = x.toNat / 2 ^ start % 2 ^ len := by
  rw [BitVec.extractLsb'_toNat, Nat.shiftRight_eq_div_pow]

/-! ### The layouts of R85, with the status byte `x` a variable: `simp` rewrites a leading zero literal away -/

theorem cut_byte (x v : Byte) :
    (x ++ v ++ 0#80 : Word).extractLsb' 88 8 = x ∧ (x ++ v ++ 0#80 : Word).extractLsb' 80 8 = v ∧
      (x ++ v ++ 0#80 : Word).extractLsb' 0 80 = 0#80 := by
  simp [extract_append_low (a := 16) (b := 80), extract_append_high (a := 16) (b := 80),
    extract_append_low (a := 8) (b := 8), extract_append_high (a := 8) (b := 8)]

theorem cut_half (x : Byte) (v : Half) :
    (x ++ v ++ 0#72 : Word).extractLsb' 88 8 = x ∧ (x ++ v ++ 0#72 : Word).extractLsb' 72 16 = v ∧
      (x ++ v ++ 0#72 : Word).extractLsb' 0 72 = 0#72 := by
  simp [extract_append_low (a := 24) (b := 72), extract_append_high (a := 24) (b := 72),
    extract_append_low (a := 8) (b := 16), extract_append_high (a := 8) (b := 16)]

theorem cut_control (x l e rs rt : Byte) : let w : Word := x ++ l ++ e ++ rs ++ rt ++ 0#56
    w.extractLsb' 88 8 = x ∧ w.extractLsb' 80 8 = l ∧ w.extractLsb' 72 8 = e ∧ w.extractLsb' 64 8 = rs ∧
      w.extractLsb' 56 8 = rt ∧ w.extractLsb' 0 56 = 0#56 := by
  simp [extract_append_low (a := 40) (b := 56), extract_append_high (a := 40) (b := 56),
    extract_append_low (a := 32) (b := 8), extract_append_high (a := 32) (b := 8),
    extract_append_low (a := 24) (b := 8), extract_append_high (a := 24) (b := 8),
    extract_append_low (a := 16) (b := 8), extract_append_high (a := 16) (b := 8),
    extract_append_low (a := 8) (b := 8), extract_append_high (a := 8) (b := 8)]

theorem cut_dateTime (x : Byte) (y : Half) (mo d h mi s wd : Byte) (yd : Half) :
    let w : Word := x ++ y ++ mo ++ d ++ h ++ mi ++ s ++ wd ++ yd ++ 0#8
    w.extractLsb' 88 8 = x ∧ w.extractLsb' 72 16 = y ∧ w.extractLsb' 64 8 = mo ∧ w.extractLsb' 56 8 = d ∧
      w.extractLsb' 48 8 = h ∧ w.extractLsb' 40 8 = mi ∧ w.extractLsb' 32 8 = s ∧ w.extractLsb' 24 8 = wd ∧
      w.extractLsb' 8 16 = yd ∧ w.extractLsb' 0 8 = 0#8 := by
  simp [extract_append_low (a := 88) (b := 8), extract_append_high (a := 88) (b := 8),
    extract_append_low (a := 72) (b := 16), extract_append_high (a := 72) (b := 16),
    extract_append_low (a := 64) (b := 8), extract_append_high (a := 64) (b := 8),
    extract_append_low (a := 56) (b := 8), extract_append_high (a := 56) (b := 8),
    extract_append_low (a := 48) (b := 8), extract_append_high (a := 48) (b := 8),
    extract_append_low (a := 40) (b := 8), extract_append_high (a := 40) (b := 8),
    extract_append_low (a := 32) (b := 8), extract_append_high (a := 32) (b := 8),
    extract_append_low (a := 24) (b := 8), extract_append_high (a := 24) (b := 8),
    extract_append_low (a := 8) (b := 16), extract_append_high (a := 8) (b := 16)]

/-! ### The encoder and the decoder -/

theorem wordOpcode_encode (i : Instr) : wordOpcode (encode i) = opcodeOf i.mnemonic :=
  BitVec.extractLsb'_append_eq_left

theorem mnemonicOf_opcodeOf (m : Mnemonic) : mnemonicOf (opcodeOf m) = some m := by
  cases m <;> rfl

theorem opcodeOf_of_mnemonicOf {op : Byte} {m : Mnemonic} (h : mnemonicOf op = some m) : opcodeOf m = op := by
  apply BitVec.eq_of_toNat_eq
  unfold mnemonicOf at h
  split at h <;> simp_all <;> subst h <;> rfl

theorem mnemonic_instrOf (m : Mnemonic) (w : Word) : (instrOf m w).mnemonic = m := by
  cases m <;> rfl

/-- The operands of an encoded command are where the decoder looks for them. -/
theorem instrOf_encode (i : Instr) : instrOf i.mnemonic (encode i) = i := by
  cases i <;> simp [instrOf, Instr.mnemonic, encode, operandBits, fieldA, fieldB, fieldYear, fieldMonth, fieldDay,
    fieldHour, fieldMinute, fieldSecond, fieldWeekday, fieldYearday, extract_append_low (a := 8) (b := 88),
    extract_append_low (b := 16), extract_append_low (b := 8), extract_append_high (b := 80),
    extract_append_high (b := 72), extract_append_high (b := 56), extract_append_high (b := 8),
    extract_append_high (b := 16)]

/-- The encoder leaves every reserved bit 0. -/
theorem reservedClear_encode (i : Instr) : reservedClear i.mnemonic.format (encode i) = true := by
  cases i <;> simp [reservedClear, Instr.mnemonic, Mnemonic.format, reservedWidth, encode, operandBits,
    extract_append_low (a := 8) (b := 88), extract_append_low (b := 80), extract_append_low (b := 72),
    extract_append_low (b := 56), extract_append_low (b := 8)]

/-- What the decoder answers, said once. -/
theorem decode_ok_iff (w : Word) (i : Instr) :
    decode w = .ok i ↔
      ∃ m, mnemonicOf (wordOpcode w) = some m ∧ reservedClear m.format w = true ∧ instrOf m w = i := by
  unfold decode
  split
  · simp [*]
  · split <;> simp_all

theorem decode_error_opcode {w : Word} {x : Illegal} (h : decode w = .error x) : x.opcode = wordOpcode w := by
  unfold decode at h
  split at h
  · cases h; rfl
  · split at h <;> cases h; rfl

/-! ### Written lines -/

/-- The check of a line, in the terms of lengths and bounds (R81, R82). -/
theorem operandsFit_iff (ws ns : List Nat) :
    operandsFit ws ns = true ↔ ns.length = ws.length ∧ ∀ p ∈ ns.zip ws, p.1 < 2 ^ p.2 := by
  induction ws generalizing ns with
  | nil => cases ns <;> simp [operandsFit]
  | cons w ws ih => cases ns <;> simp [operandsFit, ih, and_left_comm]

end Sys2Proof.Machine
end

