-- ==== Sys2Proof/Laws/Exec.lean ====
section
/-! SUPPORT. What one command can do, said once (`exec_effect`), and what one step can do (`step_effect`). A proof
about all commands takes these cases apart and does not unfold a meaning. -/

namespace Sys2Proof.Machine

/-- An `OK` response in the format of `i`'s row (R85, R90). -/
def OkOf (i : Instr) (x : Word) : Prop :=
  wordStatus x = 0x00 ∧ x.extractLsb' 0 (unlistedBits i.mnemonic.responseFormat) = 0

/-- The ways a command can end, with what the bus did and everything that is then different from `s`. -/
inductive Effect (i : Instr) (s : State) : State → Prop
  /-- It issues nothing and answers `OK`. -/
  | answers (x : Word) (n : Nat) (hi : transactionsOf i = []) (hx : OkOf i x) :
      Effect i s { s with responses := s.responses ++ [x], draws := n }
  /-- It issues nothing and answers `INVALID_ARGUMENT`. -/
  | invalid (c : BadArgument) (hi : transactionsOf i = []) :
      Effect i s { s with responses := s.responses ++ [errorWord 0x01 (errorInfo (.invalidArgument c))] }
  /-- `SETWS` stores its operand. -/
  | setsWs (a : Byte) (hi : i = .setws a) (ha : a.toNat ≤ 6) :
      Effect i s { s with ws := .ofNat 3 a.toNat, responses := s.responses ++ [okEmpty] }
  /-- Its one transaction succeeds and it answers `OK`; a datetime read refreshes `HALT`. -/
  | transfers (r : TimeRegs) (e : BusEvent) (h : Bool) (x : Word) (n : Nat) (hb : busAnswerAt s 0 = .success r)
      (hi : transactionsOf i = [e.shape]) (he : legalEvent s.addr e = true) (ho : e.outcome = .ok)
      (hh : h = s.halt ∨ i ∈ datetimeReads) (hx : OkOf i x) :
      Effect i s { afterOne s e x n with halt := h }
  /-- Its first transaction fails. -/
  | fails (c : Byte) (e : BusEvent) (n : Nat) (more : List Shape) (hb : busAnswerAt s 0 = .failure c)
      (hi : transactionsOf i = e.shape :: more) (he : legalEvent s.addr e = true) (ho : e.outcome = .failed c) :
      Effect i s (afterOne s e (errorWord 0x02 c) n)
  /-- Its first transaction is never answered. -/
  | waits (e : BusEvent) (n : Nat) (more : List Shape) (hb : busAnswerAt s 0 = .silence)
      (hi : transactionsOf i = e.shape :: more) (he : legalEvent s.addr e = true) (ho : e.outcome = .unanswered) :
      Effect i s { s with blocked := true, bus := s.bus.tail, events := s.events ++ [e], draws := n }
  /-- `SETHALT`: both transactions succeed, and the requested value is cached. -/
  | haltSets (a : Byte) (r r' : TimeRegs) (e e' : BusEvent) (n : Nat) (hb : busAnswerAt s 0 = .success r)
      (hb' : busAnswerAt s 1 = .success r') (hi : i = .sethalt a) (hs : e.shape = shapeT3) (hs' : e'.shape = shapeT4)
      (he : legalEvent s.addr e = true) (he' : legalEvent s.addr e' = true) (ho : e.outcome = .ok)
      (ho' : e'.outcome = .ok) :
      Effect i s { s with halt := requested a, bus := s.bus.tail.tail, events := s.events ++ [e] ++ [e']
                          responses := s.responses ++ [encodeResponse .empty], draws := n }
  /-- `SETHALT`: the write fails. -/
  | haltFails (a c : Byte) (r : TimeRegs) (e e' : BusEvent) (n : Nat) (hb : busAnswerAt s 0 = .success r)
      (hb' : busAnswerAt s 1 = .failure c) (hi : i = .sethalt a) (hs : e.shape = shapeT3) (hs' : e'.shape = shapeT4)
      (he : legalEvent s.addr e = true) (he' : legalEvent s.addr e' = true) (ho : e.outcome = .ok)
      (ho' : e'.outcome = .failed c) :
      Effect i s { s with bus := s.bus.tail.tail, events := s.events ++ [e] ++ [e']
                          responses := s.responses ++ [errorWord 0x02 c], draws := n }
  /-- `SETHALT`: the write is never answered. -/
  | haltWaits (a : Byte) (r : TimeRegs) (e e' : BusEvent) (n : Nat) (hb : busAnswerAt s 0 = .success r)
      (hb' : busAnswerAt s 1 = .silence) (hi : i = .sethalt a) (hs : e.shape = shapeT3) (hs' : e'.shape = shapeT4)
      (he : legalEvent s.addr e = true) (he' : legalEvent s.addr e' = true) (ho : e.outcome = .ok)
      (ho' : e'.outcome = .unanswered) :
      Effect i s { s with blocked := true, bus := s.bus.tail.tail, events := s.events ++ [e] ++ [e'], draws := n }

theorem okOf_byte {i : Instr} (v : Byte) (h : i.mnemonic.responseFormat = .RB) :
    OkOf i (encodeResponse (.byte v)) := by
  refine ⟨(cut_byte _ _).1, ?_⟩; rw [h]; exact (cut_byte _ _).2.2

theorem okOf_half {i : Instr} (v : Half) (h : i.mnemonic.responseFormat = .RW) :
    OkOf i (encodeResponse (.half v)) := by
  refine ⟨(cut_half _ _).1, ?_⟩; rw [h]; exact (cut_half _ _).2.2

theorem okOf_empty {i : Instr} (h : i.mnemonic.responseFormat = .RN) : OkOf i (encodeResponse .empty) := by
  refine ⟨by decide, ?_⟩; rw [h]; decide

theorem okOf_dateTime {i : Instr} (d : DateTime) (h : i.mnemonic.responseFormat = .RDT) :
    OkOf i (encodeResponse (.dateTime d)) := by
  obtain ⟨h0, -, -, -, -, -, -, -, -, h9⟩ := cut_dateTime statusOk d.year d.month d.day d.hour d.minute d.second d.weekday d.yearday
  refine ⟨h0, ?_⟩; rw [h]; exact h9

theorem okOf_control {i : Instr} (c : Control) (h : i.mnemonic.responseFormat = .RC) :
    OkOf i (encodeResponse (.control c)) := by
  obtain ⟨h0, -, -, -, -, h5⟩ := cut_control statusOk c.level c.enable c.rs c.rate
  refine ⟨h0, ?_⟩; rw [h]; exact h5

theorem legalEvent_readOk (s : State) (r : TimeRegs) : legalEvent s.addr (readOk s r) = true := by
  simp [legalEvent, readOk, BusEvent.shape, shapeT1]

/-- Every datetime read has the effect of one T1 transaction. -/
theorem readDateTime_effect {i : Instr} (answer : DateTime → Response) (s : State) (hi : i ∈ datetimeReads)
    (hx : ∀ d, OkOf i (encodeResponse (answer d))) : Effect i s (readDateTime answer s) := by
  have ht : transactionsOf i = [shapeT1] := by
    simp only [datetimeReads, List.mem_cons, List.not_mem_nil, or_false] at hi
    rcases hi with rfl | rfl | rfl | rfl | rfl | rfl | rfl | rfl | rfl <;> rfl
  rcases readDateTime_cases answer s with ⟨r, hb, hm⟩ | ⟨c, hb, hm⟩ | ⟨hb, hm⟩ <;> rw [hm]
  · exact .transfers r (readOk s r) _ _ _ hb ht (legalEvent_readOk s r) rfl (.inr hi) (hx _)
  · exact .fails c (readFailed s c) _ [] hb ht (by simp [legalEvent, readFailed, BusEvent.shape, shapeT1]) rfl
  · exact .waits ⟨.read, s.addr, 0, 7, [], .unanswered⟩ _ [] hb ht
      (by simp [legalEvent, BusEvent.shape, shapeT1]) rfl

/-- A command of one write, whatever draws it sets aside. -/
theorem write_effect {i : Instr} (off : Byte) (buf : List Byte) (n : Nat) (s : State)
    (ht : transactionsOf i = [(.write, off, .ofNat 8 buf.length)])
    (hl : (BitVec.ofNat 8 buf.length).toNat = buf.length)
    (hs : [shapeT1, shapeT2, shapeT3, shapeT4, shapeT5].contains (Dir.write, off, BitVec.ofNat 8 buf.length) = true)
    (hx : i.mnemonic.responseFormat = .RN) :
    Effect i s (spendDraws n (afterBus (memWrite off buf s) fun _ s1 => respond .empty s1)) := by
  have he : ∀ o, legalEvent s.addr ⟨.write, s.addr, off, .ofNat 8 buf.length, buf, o⟩ = true := by
    intro o
    simp only [legalEvent, BusEvent.shape, hs, hl]
    simp
  rcases memWrite_cases off buf s with ⟨r, hb, hm⟩ | ⟨c, hb, hm⟩ | ⟨hb, hm⟩ <;> rw [hm]
  · exact .transfers r _ s.halt _ (s.draws + 1 + n) hb ht (he .ok) rfl (.inl rfl) (okOf_empty hx)
  · exact .fails c _ (s.draws + 1 + n) [] hb ht (he (.failed c)) rfl
  · exact .waits _ (s.draws + 1 + n) [] hb ht (he .unanswered) rfl

theorem sethalt_effect (a : Byte) (s : State) :
    Effect (.sethalt a) s (afterBus (memRead 0 1 s) fun r s1 =>
      afterBus (memWrite 0 [haltSet r.seconds (requested a)] s1) fun _ s2 =>
        respond .empty (setHalt (requested a) s2)) := by
  rcases memRead_cases 0 1 s with ⟨r, hb, hm⟩ | ⟨c, hb, hm⟩ | ⟨hb, hm⟩ <;> rw [hm]
  · rw [afterBus_done]
    have he : legalEvent s.addr ⟨.read, s.addr, 0, 1, replyBytes 0 1 r, .ok⟩ = true := by
      simp [legalEvent, BusEvent.shape, shapeT1, shapeT2, shapeT3, shapeT4, shapeT5, replyBytes, timeBytes]
    have he' : ∀ b o, legalEvent s.addr ⟨.write, s.addr, 0, .ofNat 8 [b].length, [b], o⟩ = true := by
      intro b o
      simp [legalEvent, BusEvent.shape, shapeT1, shapeT2, shapeT3, shapeT4, shapeT5]
    rcases memWrite_cases 0 [haltSet r.seconds (requested a)]
      (pushEvent ⟨.read, s.addr, 0, 1, replyBytes 0 1 r, .ok⟩ (popAnswer s)) with
        ⟨r', hb', hm'⟩ | ⟨c, hb', hm'⟩ | ⟨hb', hm'⟩ <;> rw [hm'] <;>
      rw [busAnswerAt_after s _ 0 rfl rfl] at hb'
    · exact .haltSets a r r' _ _ (s.draws + 1 + 1) hb hb' rfl rfl rfl he (he' _ .ok) rfl rfl
    · exact .haltFails a c r _ _ (s.draws + 1 + 1) hb hb' rfl rfl rfl he (he' _ (.failed c)) rfl rfl
    · exact .haltWaits a r _ _ (s.draws + 1 + 1) hb hb' rfl rfl rfl he (he' _ .unanswered) rfl rfl
  · exact .fails c _ _ [shapeT4] hb rfl (by simp [legalEvent, BusEvent.shape, shapeT1, shapeT2, shapeT3, shapeT4, shapeT5]) rfl
  · exact .waits _ _ [shapeT4] hb rfl (by simp [legalEvent, BusEvent.shape, shapeT1, shapeT2, shapeT3, shapeT4, shapeT5]) rfl

theorem encodeResponse_empty : encodeResponse .empty = okEmpty := by decide

theorem setws_effect (a : Byte) (s : State) (h : a ≤ 6) :
    Effect (.setws a) s (respond .empty (setWs (a.setWidth 3) s)) := by
  have ha : a.toNat ≤ 6 := h
  have hw : a.setWidth 3 = BitVec.ofNat 3 a.toNat := BitVec.eq_of_toNat_eq (by simp)
  rw [hw, respond, encodeResponse_empty]
  exact .setsWs a rfl ha

/-- Every command takes a next state, and does there what `Effect` lists and nothing else. -/
theorem exec_effect (i : Instr) (s : State) : ∃ t, exec i s = .next t ∧ Effect i s t := by
  cases i with
  | getdt => exact ⟨_, rfl, readDateTime_effect _ _ (by simp [datetimeReads]) fun _ => okOf_dateTime _ rfl⟩
  | getyear => exact ⟨_, rfl, readDateTime_effect _ _ (by simp [datetimeReads]) fun _ => okOf_half _ rfl⟩
  | getmonth => exact ⟨_, rfl, readDateTime_effect _ _ (by simp [datetimeReads]) fun _ => okOf_byte _ rfl⟩
  | getday => exact ⟨_, rfl, readDateTime_effect _ _ (by simp [datetimeReads]) fun _ => okOf_byte _ rfl⟩
  | gethour => exact ⟨_, rfl, readDateTime_effect _ _ (by simp [datetimeReads]) fun _ => okOf_byte _ rfl⟩
  | getmin => exact ⟨_, rfl, readDateTime_effect _ _ (by simp [datetimeReads]) fun _ => okOf_byte _ rfl⟩
  | getsec => exact ⟨_, rfl, readDateTime_effect _ _ (by simp [datetimeReads]) fun _ => okOf_byte _ rfl⟩
  | getwday => exact ⟨_, rfl, readDateTime_effect _ _ (by simp [datetimeReads]) fun _ => okOf_byte _ rfl⟩
  | getyday => exact ⟨_, rfl, readDateTime_effect _ _ (by simp [datetimeReads]) fun _ => okOf_half _ rfl⟩
  | setdt => exact ⟨_, rfl, write_effect 0 _ _ _ rfl rfl rfl rfl⟩
  | sethalt a => exact ⟨_, rfl, sethalt_effect a s⟩
  | sqw a b =>
    simp only [exec, execSqw]
    by_cases h : legalRate a = true
    · have ht : transactionsOf (.sqw a b) = [shapeT5] := if_pos ((legalRate_iff a).1 h)
      exact ⟨_, by rw [if_pos h]; rfl, write_effect 7 [ctrlPack a b] 0 s ht rfl rfl rfl⟩
    · have ht : transactionsOf (.sqw a b) = [] := if_neg fun h' => h ((legalRate_iff a).2 h')
      exact ⟨_, by rw [if_neg h]; rfl, .invalid .squareWaveRate ht⟩
  | ctlpk a b =>
    simp only [exec, execCtlpk]
    split
    · exact ⟨_, rfl, .answers _ s.draws rfl (okOf_byte _ rfl)⟩
    · exact ⟨_, rfl, .invalid .squareWaveRate rfl⟩
  | setws a =>
    simp only [exec, execSetws]
    split
    · exact ⟨_, rfl, setws_effect a s (by assumption)⟩
    · exact ⟨_, rfl, .invalid .weekdayStart rfl⟩
  | getws => exact ⟨_, rfl, .answers _ s.draws rfl (okOf_byte _ rfl)⟩
  | wdenc => exact ⟨_, rfl, .answers _ (s.draws + 1) rfl (okOf_byte _ rfl)⟩
  | wddec => exact ⟨_, rfl, .answers _ s.draws rfl (okOf_byte _ rfl)⟩
  | d2b => exact ⟨_, rfl, .answers _ (s.draws + 1) rfl (okOf_byte _ rfl)⟩
  | b2d => exact ⟨_, rfl, .answers _ s.draws rfl (okOf_byte _ rfl)⟩
  | isleap => exact ⟨_, rfl, .answers _ s.draws rfl (okOf_byte _ rfl)⟩
  | doy => exact ⟨_, rfl, .answers _ (s.draws + 1) rfl (okOf_half _ rfl)⟩
  | gethalt => exact ⟨_, rfl, .answers _ s.draws rfl (okOf_byte _ rfl)⟩
  | ctlupk => exact ⟨_, rfl, .answers _ s.draws rfl (okOf_control _ rfl)⟩

/-- What one step can do: nothing, an illegal word's answer, or one command's effect. -/
theorem step_effect (s : State) :
    (takeCommand s = none ∧ step s = .next s) ∨
    ∃ w rest, s.blocked = false ∧ s.commands = w :: rest ∧
      ((∃ why, decode w = .error why ∧ step s = .next
        { s with commands := rest, responses := s.responses ++ [errorWord 0x03 (wordOpcode w)] }) ∨
       ∃ i t, decode w = .ok i ∧ step s = .next t ∧ Effect i { s with commands := rest } t) := by
  cases ht : takeCommand s with
  | none => exact .inl ⟨rfl, by simp [step, ht]⟩
  | some p =>
    obtain ⟨w, t⟩ := p
    obtain ⟨hb, rest, hc, rfl⟩ := (takeCommand_some_iff s t w).1 ht
    refine .inr ⟨w, rest, hb, hc, ?_⟩
    cases hd : decode w with
    | error why =>
      refine .inl ⟨why, rfl, ?_⟩
      simp only [step, ht, hd, rejectWord, decode_error_opcode hd]
      rfl
    | ok i =>
      obtain ⟨t, he, hE⟩ := exec_effect i { s with commands := rest }
      exact .inr ⟨i, t, rfl, by simp only [step, ht, hd, he], hE⟩

/-- A run of one step more takes that step first. -/
theorem run_succ (M : Host.Core) {s u : M.State} (h : M.step s = .next u) (k : Nat) :
    M.run (k + 1) s = M.run k u := by
  simp [Host.Core.run, h]

end Sys2Proof.Machine
end

