-- ==== Sys2Proof/Laws/PerInstr.lean ====
section
/-! SUPPORT. The family `TableRow`: every command's word meets its row of spec/opcode_table.json. -/

namespace Sys2Proof.Laws.TableRow

open Sys2Proof Sys2Proof.Machine

/-- The row of a command in `opcodeRows`, by its place in the table. -/
def rowIndex : Mnemonic → Nat
  | .getdt => 0
  | .setdt => 1
  | .getyear => 2
  | .getmonth => 3
  | .getday => 4
  | .gethour => 5
  | .getmin => 6
  | .getsec => 7
  | .getwday => 8
  | .getyday => 9
  | .getws => 10
  | .setws => 11
  | .wdenc => 12
  | .wddec => 13
  | .d2b => 14
  | .b2d => 15
  | .isleap => 16
  | .doy => 17
  | .gethalt => 18
  | .sethalt => 19
  | .sqw => 20
  | .ctlpk => 21
  | .ctlupk => 22

/-- A command's row. -/
def row (m : Mnemonic) : Word × Word := opcodeRows.getD (rowIndex m) (0, 0)

/-- The word agrees with its row's match value on the opcode byte and on the bits below it that the row's mask
fixes; and the mask fixes exactly the opcode and the bits the format marks zero. -/
def Statement (i : Instr) : Prop :=
  wordOpcode (encode i) = wordOpcode (row i.mnemonic).1 ∧
    (encode i).extractLsb' 0 (reservedWidth i.mnemonic.format) = 0 ∧
    (row i.mnemonic).1 = opcodeOf i.mnemonic ++ 0#88 ∧
    (row i.mnemonic).2 = 0xFF#8 ++ (BitVec.allOnes 88 >>> (88 - reservedWidth i.mnemonic.format))

/-- The table's rows against the opcodes and formats of R81 and R90. -/
theorem row_eq (m : Mnemonic) : row m = (opcodeOf m ++ 0#88, 0xFF#8 ++ (BitVec.allOnes 88 >>> (88 - reservedWidth m.format))) := by
  cases m <;> decide

/-- The one argument behind every lemma of the family. -/
theorem statement_of_row (i : Instr) : Statement i := by
  refine ⟨?_, by simpa [reservedClear] using reservedClear_encode i, by rw [row_eq], by rw [row_eq]⟩
  rw [wordOpcode_encode, row_eq]
  exact BitVec.extractLsb'_append_eq_left.symm

theorem getdt : Statement .getdt := statement_of_row _
theorem setdt (y mo d h mi s wd yd) : Statement (.setdt y mo d h mi s wd yd) := statement_of_row _
theorem getyear : Statement .getyear := statement_of_row _
theorem getmonth : Statement .getmonth := statement_of_row _
theorem getday : Statement .getday := statement_of_row _
theorem gethour : Statement .gethour := statement_of_row _
theorem getmin : Statement .getmin := statement_of_row _
theorem getsec : Statement .getsec := statement_of_row _
theorem getwday : Statement .getwday := statement_of_row _
theorem getyday : Statement .getyday := statement_of_row _
theorem getws : Statement .getws := statement_of_row _
theorem setws (a) : Statement (.setws a) := statement_of_row _
theorem wdenc (a b) : Statement (.wdenc a b) := statement_of_row _
theorem wddec (a b) : Statement (.wddec a b) := statement_of_row _
theorem d2b (a) : Statement (.d2b a) := statement_of_row _
theorem b2d (a) : Statement (.b2d a) := statement_of_row _
theorem isleap (y) : Statement (.isleap y) := statement_of_row _
theorem doy (y m d) : Statement (.doy y m d) := statement_of_row _
theorem gethalt : Statement .gethalt := statement_of_row _
theorem sethalt (a) : Statement (.sethalt a) := statement_of_row _
theorem sqw (a b) : Statement (.sqw a b) := statement_of_row _
theorem ctlpk (a b) : Statement (.ctlpk a b) := statement_of_row _
theorem ctlupk (a) : Statement (.ctlupk a) := statement_of_row _

end Sys2Proof.Laws.TableRow
end

