-- ==== Sys2Proof/Tests/Slice0.lean ====
section
/-! SUPPORT. The model's own tests. Words, replies and results are those that spec/ writes out: the examples of the
rules named, spec/30_encoding.md, and the vectors S1 to S10 and tables 2.1 to 2.8 of spec/95_test_vectors.md. After
them, for every statement with hypotheses, a concrete state and operands that meet them, at the ends of the ranges. -/

namespace Sys2Proof.Tests

open Sys2Proof Sys2Proof.Machine

/-- An idle codec with this state and these bus answers. -/
def codec (ws : BitVec 3) (halt : Bool) (bus : List BusAnswer) : State :=
  { State.resetWith ws halt 0x68 with bus := bus }

/-- The registers of S5. -/
def regsS5 : TimeRegs := ⟨0x59, 0x45, 0x20, 0x03, 0x29, 0x05, 0x23⟩

/-- A state after one step, if there is one. -/
def after (o : Host.Outcome State Fault Refusal) : Option State :=
  match o with
  | .next t => some t
  | .fault _ => none
  | .refused _ => none

/-- What the host and the bus see of the step that takes the word `w`: the responses and the bytes moved. -/
def seen (w : Word) (s : State) : Option (List Word × List (List Byte)) :=
  (after (step (presentCommand w s))).map fun t => (t.responses, t.events.map BusEvent.bytes)

/-- `WS` and `HALT` after that step. -/
def kept (w : Word) (s : State) : Option (BitVec 3 × Bool) :=
  (after (step (presentCommand w s))).map fun t => (t.ws, t.halt)

/-! ### Well-formedness: each check refuses an ill-formed line (R81, R82, R100) -/

theorem test_wellFormed_accepts : (Line.mk (.command .doy) [2024, 3, 26]).wellFormed = true := by decide
theorem test_wellFormed_refuses_missing_operand : (Line.mk (.command .doy) [2024, 3]).wellFormed = false := by decide
theorem test_wellFormed_refuses_extra_operand : (Line.mk (.command .getdt) [0]).wellFormed = false := by decide
theorem test_wellFormed_refuses_wide_u8 : (Line.mk (.command .setws) [256]).wellFormed = false := by decide
theorem test_wellFormed_refuses_wide_u16 : (Line.mk (.command .isleap) [65536]).wellFormed = false := by decide
theorem test_assemble_refuses_ill_formed : assemble ⟨.command .setws, [256]⟩ = none := by decide

/-! ### Decoding: one word of every row, byte by byte from R80 to R82 and R90 -/

theorem test_decode_getdt : decode 0x10_00_00_00_00_00_00_00_00_00_00_00 = .ok .getdt := by decide
theorem test_decode_setdt :
    decode 0x11_07E7_05_1D_14_2D_3B_03_0095_00 = .ok (.setdt 2023 5 29 20 45 59 3 149) := by decide
theorem test_decode_getyear : decode 0x12_00_00_00_00_00_00_00_00_00_00_00 = .ok .getyear := by decide
theorem test_decode_getmonth : decode 0x13_00_00_00_00_00_00_00_00_00_00_00 = .ok .getmonth := by decide
theorem test_decode_getday : decode 0x14_00_00_00_00_00_00_00_00_00_00_00 = .ok .getday := by decide
theorem test_decode_gethour : decode 0x15_00_00_00_00_00_00_00_00_00_00_00 = .ok .gethour := by decide
theorem test_decode_getmin : decode 0x16_00_00_00_00_00_00_00_00_00_00_00 = .ok .getmin := by decide
theorem test_decode_getsec : decode 0x17_00_00_00_00_00_00_00_00_00_00_00 = .ok .getsec := by decide
theorem test_decode_getwday : decode 0x18_00_00_00_00_00_00_00_00_00_00_00 = .ok .getwday := by decide
theorem test_decode_getyday : decode 0x19_00_00_00_00_00_00_00_00_00_00_00 = .ok .getyday := by decide
theorem test_decode_getws : decode 0x20_00_00_00_00_00_00_00_00_00_00_00 = .ok .getws := by decide
theorem test_decode_setws : decode 0x21_03_00_00_00_00_00_00_00_00_00_00 = .ok (.setws 3) := by decide
theorem test_decode_wdenc : decode 0x22_03_06_00_00_00_00_00_00_00_00_00 = .ok (.wdenc 3 6) := by decide
theorem test_decode_wddec : decode 0x23_12_06_00_00_00_00_00_00_00_00_00 = .ok (.wddec 0x12 6) := by decide
theorem test_decode_d2b : decode 0x30_3B_00_00_00_00_00_00_00_00_00_00 = .ok (.d2b 59) := by decide
theorem test_decode_b2d : decode 0x31_59_00_00_00_00_00_00_00_00_00_00 = .ok (.b2d 0x59) := by decide
theorem test_decode_isleap : decode 0x40_07E8_00_00_00_00_00_00_00_00_00 = .ok (.isleap 2024) := by decide
theorem test_decode_doy : decode 0x41_07E8_03_1A_00_00_00_00_00_00_00 = .ok (.doy 2024 3 26) := by decide
theorem test_decode_gethalt : decode 0x50_00_00_00_00_00_00_00_00_00_00_00 = .ok .gethalt := by decide
theorem test_decode_sethalt : decode 0x51_01_00_00_00_00_00_00_00_00_00_00 = .ok (.sethalt 1) := by decide
theorem test_decode_sqw : decode 0x60_20_01_00_00_00_00_00_00_00_00_00 = .ok (.sqw 32 1) := by decide
theorem test_decode_ctlpk : decode 0x61_04_01_00_00_00_00_00_00_00_00_00 = .ok (.ctlpk 4 1) := by decide
theorem test_decode_ctlupk : decode 0x62_93_00_00_00_00_00_00_00_00_00_00 = .ok (.ctlupk 0x93) := by decide

/-- Table 2.8: unknown opcodes and reserved bits are refused by name. -/
theorem test_decode_refuses_unknown_opcode :
    decode 0x1A0000000000000000000000 = .error (.unknownOpcode 0x1A) ∧
    decode 0x240000000000000000000000 = .error (.unknownOpcode 0x24) ∧
    decode 0x630000000000000000000000 = .error (.unknownOpcode 0x63) := by decide
theorem test_decode_refuses_reserved_bit :
    decode 0x100000000000000000000001 = .error (.reservedBits 0x10) ∧
    decode 0x210301000000000000000000 = .error (.reservedBits 0x21) ∧
    decode 0x1107E7051D142D3B030095FF = .error (.reservedBits 0x11) ∧
    decode 0x4007E8010000000000000000 = .error (.reservedBits 0x40) := by decide
theorem test_decodeTableWord : decodeTableWord 96 0x210300000000000000000000 = some (.setws 3) := by decide
theorem test_withFetchWord :
    (after (step (State.reset.withFetchWord 96 0x210300000000000000000000))).map State.ws = some 3 := by decide

theorem test_every_row_runs_first_after_reset : opcodeRows.all (fun row =>
    (decodeTableWord 96 row.1.toNat).isSome && (after (step (State.reset.withFetchWord 96 row.1.toNat))).isSome) =
      true := by decide

/-! ### One step of each command -/

/-- R253, table 2.8: decoding comes before the argument check. -/
theorem test_illegal_word : seen 0x210701000000000000000000 (codec 3 true []) =
    some ([0x032100000000000000000000], []) := by decide

/-- S5, and the second read of table 2.7. -/
theorem test_getdt : seen 0x100000000000000000000000 (codec 0 false [.success regsS5]) =
    some ([0x0007E7051D142D3B03009500], [[0x59, 0x45, 0x20, 0x03, 0x29, 0x05, 0x23]]) := by decide
theorem test_getdt_caches_halt :
    kept 0x100000000000000000000000 (codec 5 false [.success { regsS5 with seconds := 0xD9 }]) = some (5, true) := by
  decide

/-- Table 2.7: the largest offset with the halt flag set; a second above 79 sets bit 7 by itself. -/
theorem test_setdt : seen 0x1108330C1F173B3B06016D00 (codec 6 true [.success regsS5]) =
    some ([0x000000000000000000000000], [[0xD9, 0x59, 0x23, 0x12, 0x31, 0x12, 0x99]]) := by decide
theorem test_setdt_second_sets_halt_bit : seen 0x1107E7051D142D5503000000 (codec 0 false [.success regsS5]) =
    some ([0x000000000000000000000000], [[0x85, 0x45, 0x20, 0x03, 0x29, 0x05, 0x23]]) := by decide

/-- Table 2.7: the projections of S5's registers. -/
theorem test_getyear : (seen 0x120000000000000000000000 (codec 0 true [.success regsS5])).map Prod.fst =
    some [0x0007E7000000000000000000] := by decide
theorem test_getmonth : (seen 0x130000000000000000000000 (codec 0 true [.success regsS5])).map Prod.fst =
    some [0x000500000000000000000000] := by decide
theorem test_getday : (seen 0x140000000000000000000000 (codec 0 true [.success regsS5])).map Prod.fst =
    some [0x001D00000000000000000000] := by decide
theorem test_gethour : (seen 0x150000000000000000000000 (codec 0 true [.success regsS5])).map Prod.fst =
    some [0x001400000000000000000000] := by decide
theorem test_getmin : (seen 0x160000000000000000000000 (codec 0 true [.success regsS5])).map Prod.fst =
    some [0x002D00000000000000000000] := by decide
theorem test_getsec : (seen 0x170000000000000000000000 (codec 0 true [.success regsS5])).map Prod.fst =
    some [0x003B00000000000000000000] := by decide
theorem test_getwday : (seen 0x180000000000000000000000 (codec 0 true [.success regsS5])).map Prod.fst =
    some [0x000300000000000000000000] := by decide
theorem test_getyday : (seen 0x190000000000000000000000 (codec 0 true [.success regsS5])).map Prod.fst =
    some [0x000095000000000000000000] := by decide

/-- Section 2.3. -/
theorem test_getws : seen 0x200000000000000000000000 (codec 3 false []) = some ([0x000300000000000000000000], []) := by
  decide
theorem test_setws : kept 0x210600000000000000000000 (codec 3 true []) = some (6, true) := by decide
theorem test_setws_seven : seen 0x210700000000000000000000 (codec 3 false []) =
    some ([0x010100000000000000000000], []) := by decide
theorem test_wdenc : seen 0x220406000000000000000000 (codec 0 false []) =
    some ([0x001000000000000000000000], []) := by decide
theorem test_wddec : seen 0x230103000000000000000000 (codec 0 false []) =
    some ([0x000500000000000000000000], []) := by decide
theorem test_wddec_largest : seen 0x2300FF000000000000000000 (codec 0 false []) =
    some ([0x000400000000000000000000], []) := by decide

/-- Sections 2.1 and 2.2. -/
theorem test_d2b : seen 0x306300000000000000000000 (codec 0 false []) =
    some ([0x009900000000000000000000], []) := by decide
theorem test_b2d : seen 0x31D900000000000000000000 (codec 0 false []) =
    some ([0x008B00000000000000000000], []) := by decide

/-- Section 2.4. -/
theorem test_isleap : seen 0x400834000000000000000000 (codec 0 false []) =
    some ([0x000100000000000000000000], []) := by decide
theorem test_doy : seen 0x4107E8020100000000000000 (codec 0 false []) =
    some ([0x000021000000000000000000], []) := by decide
theorem test_doy_largest : seen 0x4107E80CFF00000000000000 (codec 0 false []) =
    some ([0x00024E000000000000000000], []) := by decide

/-- Section 2.5. -/
theorem test_gethalt : seen 0x500000000000000000000000 (codec 0 true []) =
    some ([0x000100000000000000000000], []) := by decide
theorem test_sethalt : seen 0x510000000000000000000000
      (codec 0 true [.success { regsS5 with seconds := 0xD9 }, .success regsS5]) =
    some ([0x000000000000000000000000], [[0xD9], [0x59]]) := by decide
theorem test_sethalt_failed_write : kept 0x510100000000000000000000
      (codec 0 false [.success regsS5, .failure 0x07]) = some (0, false) := by decide

/-- Section 2.6. -/
theorem test_sqw : seen 0x6020FF000000000000000000 (codec 0 false [.success regsS5]) =
    some ([0x000000000000000000000000], [[0x93]]) := by decide
theorem test_sqw_illegal_rate : seen 0x601001000000000000000000 (codec 0 false [.success regsS5]) =
    some ([0x010200000000000000000000], []) := by decide
theorem test_ctlpk : seen 0x610801000000000000000000 (codec 0 false []) =
    some ([0x009200000000000000000000], []) := by decide
theorem test_ctlupk : seen 0x621300000000000000000000 (codec 0 false []) =
    some ([0x000001032000000000000000], []) := by decide
theorem test_ctlupk_disabled : seen 0x628300000000000000000000 (codec 0 false []) =
    some ([0x000100030000000000000000], []) := by decide

/-! ### The hypotheses of the statements are met -/

theorem test_witness_DecoderAndEncoderAreInverse : decode (encode (.doy 65535 255 255)) = .ok (.doy 65535 255 255) := by
  decide

theorem test_witness_LegalWordsAreTheOpcodeTable :
    LegalWord 0x11FFFFFFFFFFFFFFFFFFFF00 ∧ ¬ LegalWord 0x11FFFFFFFFFFFFFFFFFFFF01 := by
  unfold LegalWord; decide

theorem test_witness_IllegalWordIsAnsweredAndIgnored :
    let s := presentCommand 0x100000000000000000000001 (codec 6 true [])
    s.blocked = false ∧ s.commands = 0x100000000000000000000001 :: [] ∧
      ¬ LegalWord 0x100000000000000000000001 := by
  unfold LegalWord; decide

theorem test_witness_OkResponsesHaveTheirRowsFormat : ∃ t : State, exec (.ctlupk 0x93) (codec 0 false []) = .next t ∧
    t.responses = (codec 0 false []).responses ++ [0x000101032000000000000000] ∧
    wordStatus 0x000101032000000000000000 = 0x00 := ⟨_, rfl, by decide, by decide⟩

theorem test_witness_PseudoInstructionsExpand :
    assemble ⟨.setdt7, [65535, 255, 255, 255, 255, 255, 255]⟩ =
      some (.setdt 65535 255 255 255 255 255 255 0) := by decide

/-- A line that fits at the ends of its ranges, one with an operand too many, one with a number just too wide. -/
theorem test_witness_WrittenCommandsAssemble :
    let fits := Line.mk (.command .doy) [65535, 0, 255]
    let long := Line.mk .halt [1]
    let wide := Line.mk .sqwoff [256]
    fits.operands.length = fits.head.operandWidths.length ∧
    (∀ p ∈ fits.operands.zip fits.head.operandWidths, p.1 < 2 ^ p.2) ∧
    long.operands.length ≠ long.head.operandWidths.length ∧
    ∃ p ∈ wide.operands.zip wide.head.operandWidths, 2 ^ p.2 ≤ p.1 := by decide

theorem test_witness_StepExecutesTheDecodedCommand :
    let s := presentCommand 0x210300000000000000000000 (codec 0 false [])
    s.blocked = false ∧ s.commands = 0x210300000000000000000000 :: [] ∧
      decode 0x210300000000000000000000 = .ok (.setws 3) := by decide

theorem test_witness_StepWithoutACommandChangesNothing :
    (codec 0 false []).commands = [] ∧
      { codec 0 false [] with commands := [0#96], blocked := true }.blocked = true := by decide

theorem test_witness_OneResponsePerCommand :
    let s := { codec 0 false [.silence] with commands := [encode .getdt, encode .getws] }
    s.blocked = false ∧ s.commands = encode .getdt :: [encode .getws] := by decide

/-- A state with a response and a transaction on record, and a step of it. -/
def busy : State :=
  { codec 6 true [.success regsS5] with
    commands := [encode .getdt]
    responses := [errorWord 0x02 0xFF]
    events := [⟨.read, 0x68, 0, 7, [], .failed 0xFF⟩] }

theorem test_witness_StepKeepsTheInvariant : busy.Inv ∧ ∃ t, step busy = .next t :=
  ⟨⟨by decide, by decide, by simp only [busy, List.mem_singleton, forall_eq]; decide, by decide⟩, _, rfl⟩

theorem test_witness_ResetMeetsTheInvariant : (6#3).toNat ≤ 6 := by decide

theorem test_witness_AddressIsFixedAtConstruction : ∃ t, step busy = .next t := ⟨_, rfl⟩

theorem test_witness_ErrorsLeaveCodecStateAlone :
    (∃ t : State, exec (.setws 7) (codec 3 true []) = .next t ∧
      t.responses = (codec 3 true []).responses ++ [0x010100000000000000000000]) ∧
    wordStatus 0x010100000000000000000000 ≠ 0x00 ∧
    (∃ t : State, exec (.sethalt 1) (codec 3 false [.success regsS5, .failure 0x07]) = .next t ∧
      t.responses = (codec 3 true []).responses ++ [0x020700000000000000000000]) ∧
    wordStatus 0x020700000000000000000000 ≠ 0x00 :=
  ⟨⟨_, rfl, by decide⟩, by decide, ⟨_, rfl, by decide⟩, by decide⟩

theorem test_witness_OnlyTheirCommandsWriteCodecState :
    (∃ t : State, exec (.setws 6) (codec 0 false []) = .next t ∧ t.ws ≠ (codec 0 false []).ws) ∧
    (∃ t : State, exec .getsec (codec 0 true [.success regsS5]) = .next t ∧ t.halt ≠ true) ∧
    (∃ t : State, exec (.sethalt 255) (codec 0 false [.success regsS5, .success regsS5]) = .next t ∧ t.halt ≠ false) :=
  ⟨⟨_, rfl, by decide⟩, ⟨_, rfl, by decide⟩, ⟨_, rfl, by decide⟩⟩

theorem test_witness_CommandsIssueTheirTransactions :
    ∃ t : State, exec (.sethalt 1) (codec 0 false [.success regsS5, .success regsS5]) = .next t ∧
      t.responses = (codec 0 false []).responses ++ [0#96] ∧ wordStatus 0#96 = 0x00 ∧
      ∃ e ∈ t.events.dropLast, e.shape = shapeT3 :=
  ⟨_, rfl, by decide, by decide, by decide⟩

theorem test_witness_EveryCommandIsAnsweredWhenTheBusAnswers :
    let s := { codec 0 false [.success regsS5, .failure 0xFF, .failure 0x01, .success regsS5] with
      commands := [encode (.sethalt 1), encode (.sethalt 0)] }
    s.blocked = false ∧ 2 * s.commands.length ≤ s.bus.length ∧ ∀ a ∈ s.bus, a ≠ .silence := by decide

theorem test_witness_SilentBusLeavesTheCommandWaiting :
    transactionsOf (.sqw 32 1) ≠ [] ∧ busAnswerAt (codec 0 false [.silence]) 0 = .silence ∧
    busAnswerAt (codec 0 false [.success regsS5, .silence]) 0 = .success regsS5 ∧
    busAnswerAt (codec 0 false [.success regsS5, .silence]) 1 = .silence ∧
    transactionsOf (.sqw 2 1) = [] := by decide

theorem test_witness_GetdtReadsAndDecodes :
    busAnswerAt (codec 0 false [.success { regsS5 with month := 0x01 }]) 0 = .success { regsS5 with month := 0x01 } ∧
    1 ≤ bcdValue 0x01 ∧ bcdValue 0x12 ≤ 12 ∧ busAnswerAt (codec 0 false [.failure 0x11]) 0 = .failure 0x11 := by decide

theorem test_witness_GetdtResultRanges :
    let s := codec 0 false [.success { regsS5 with month := 0x12, year := 0xFF }]
    busAnswerAt s 0 = .success { regsS5 with month := 0x12, year := 0xFF } ∧ ∃ t : State, exec .getdt s = .next t ∧
      ∃ w, t.responses = s.responses ++ [w] ∧ (w.extractLsb' 64 8).toNat ≤ 12 :=
  ⟨by decide, _, rfl, _, rfl, by decide⟩

theorem test_witness_ProjectionsReadAllAndAnswerOneField :
    busAnswerAt (codec 0 false [.success regsS5]) 0 = .success regsS5 ∧ 1 ≤ bcdValue 0x01 ∧ bcdValue 0x12 ≤ 12 ∧
    busAnswerAt (codec 0 false [.failure 0x11]) 0 = .failure 0x11 ∧ Instr.getyday ∈ datetimeReads := by decide

theorem test_witness_SetdtEncodesAndWrites :
    (99#8).toNat ≤ 99 ∧ (93#8).toNat + (codec 6 true []).ws.toNat ≤ 99 ∧ 2000 ≤ (2000#16).toNat ∧
    (2099#16).toNat ≤ 2099 ∧ busAnswerAt (codec 6 true [.success regsS5]) 0 = .success regsS5 ∧
    busAnswerAt (codec 6 true [.failure 0x33]) 0 = .failure 0x33 := by decide

/-- What `SETDT 2099, 99, 99, 99, 99, 79, 6` writes at offset 6 with `HALT` set. -/
def written : TimeRegs := ⟨0xF9, 0x99, 0x99, 0x12, 0x99, 0x99, 0x99⟩

theorem test_witness_DatetimeRoundTrip :
    let s := codec 6 true [.success regsS5]
    let s' := codec 0 false [.success written]
    2000 ≤ (2099#16).toNat ∧ (2099#16).toNat ≤ 2099 ∧ (99#8).toNat ≤ 99 ∧ (79#8).toNat ≤ 79 ∧ (6#8).toNat ≤ 6 ∧
    s.ws.toNat ≤ 6 ∧ s'.ws.toNat ≤ 6 ∧ busAnswerAt s 0 = .success regsS5 ∧
    busAnswerAt s' 0 = .success written ∧
    (after (exec (.setdt 2099 99 99 99 99 79 6 0) s)).map (fun t => t.events.map BusEvent.bytes) =
      some [[written.seconds, written.minutes, written.hours, written.weekday, written.day, written.month,
        written.year]] := by decide

theorem test_witness_SetdtWritesTheCachedHaltFlag : (99#8).toNat ≤ 99 ∧ 80 ≤ (80#8).toNat ∧ ¬ 80 ≤ (79#8).toNat := by
  decide

theorem test_witness_SetwsStoresOrRejects : (6#8).toNat ≤ 6 ∧ 7 ≤ (7#8).toNat := by decide

theorem test_witness_WdencAddsAndEncodes : (93#8).toNat + (6#8).toNat ≤ 99 := by decide

theorem test_witness_WeekdayRoundTrip : (6#8).toNat + (93#8).toNat ≤ 99 ∧ (6#8).toNat ≤ 6 := by decide

theorem test_witness_D2bAnswersTheCode : (99#8).toNat ≤ 99 := by decide

theorem test_witness_BcdLaws :
    (99 : Nat) ≤ 99 ∧ ((0x99 : Byte).extractLsb' 4 4).toNat ≤ 9 ∧ ((0x99 : Byte).extractLsb' 0 4).toNat ≤ 9 ∧
    (98 : Nat) < 99 ∧ (80 : Nat) ≤ 99 ∧ (9 : Nat) ≤ 9 ∧ (9#8).toNat ≤ 9 := by decide

theorem test_witness_DoyAnswersTheDayNumber : 1 ≤ (1#8).toNat ∧ (12#8).toNat ≤ 12 := by decide

theorem test_witness_YeardayOfRealDates :
    (2023#16).toNat % 4 ≠ 0 ∧ (2024#16).toNat % 4 = 0 ∧ 1 ≤ (1#8).toNat ∧ 2 ≤ (2#8).toNat ∧ (12#8).toNat ≤ 12 ∧
    ValidDate 2024 2 29 ∧ ¬ ValidDate 2023 2 29 ∧ ValidDate 2023 12 31 ∧ ValidDate 2024 1 1 := by
  unfold ValidDate; decide

theorem test_witness_HaltUnitLaws : (127#8).toNat < 128 ∧ 128 ≤ (128#8).toNat := by decide

theorem test_witness_SethaltReadsModifiesWritesCaches :
    let s := codec 0 false [.success regsS5, .success regsS5]
    let s' := codec 0 false [.failure 0x5A]
    let s'' := codec 0 false [.success regsS5, .failure 0x07]
    busAnswerAt s 0 = .success regsS5 ∧ busAnswerAt s 1 = .success regsS5 ∧ busAnswerAt s' 0 = .failure 0x5A ∧
    busAnswerAt s'' 0 = .success regsS5 ∧ busAnswerAt s'' 1 = .failure 0x07 := by decide

theorem test_witness_SqwValidatesPacksWrites :
    (∃ row ∈ controlTable, (32 : Byte) = row.1) ∧ (∃ row ∈ controlTable, (0 : Byte) = row.1) ∧
    (∀ row ∈ controlTable, (2 : Byte) ≠ row.1) ∧ (∀ row ∈ controlTable, (33 : Byte) ≠ row.1) ∧
    busAnswerAt (codec 0 false [.success regsS5]) 0 = .success regsS5 ∧
    busAnswerAt (codec 0 false [.failure 0x11]) 0 = .failure 0x11 :=
  ⟨by simp [controlTable], by simp [controlTable], by simp [controlTable], by simp [controlTable], by decide, by decide⟩

theorem test_witness_CtlpkValidatesAndPacks :
    (∃ row ∈ controlTable, (8 : Byte) = row.1) ∧ ∀ row ∈ controlTable, (255 : Byte) ≠ row.1 := by
  simp [controlTable]

theorem test_witness_CtlpkPredictsSqw : busAnswerAt (codec 0 false [.success regsS5]) 0 = .success regsS5 := by decide

theorem test_witness_CtlupkUnpacks :
    (0xEF#8).toNat / 16 % 2 = 0 ∧ (0x10#8).toNat / 16 % 2 = 1 ∧ (0x10#8).toNat % 4 = 0 ∧ (0x11#8).toNat % 4 = 1 ∧
    (0x12#8).toNat % 4 = 2 ∧ (0x93#8).toNat % 4 = 3 := by decide

theorem test_witness_ControlByteRoundTrip :
    ((32, 3) : Byte × Byte) ∈ ([(0, 0), (1, 0), (4, 1), (8, 2), (32, 3)] : List (Byte × Byte)) ∧ (1#8).toNat ≤ 1 ∧
    Answers (.ctlpk 32 1) (codec 0 false []) (okByte 0x93) ∧
    Answers (.ctlupk 0xFF) (codec 0 false []) (okControl 1 1 3 32) ∧
    Answers (.ctlupk 0x03) (codec 0 false []) (okControl 0 0 3 0) :=
  ⟨by decide, by decide, ⟨0, rfl⟩, ⟨0, rfl⟩, ⟨0, rfl⟩⟩

end Sys2Proof.Tests
end

section
/-! PROOFS. The weekday commands (spec/41_weekday.md), over two facts about any command: the word of two operand
bytes, and the answer of a command that only responds with a byte. -/

namespace Sys2Proof.Machine

/-- The format BB of R81, with the opcode set before the operand bytes or written in one row with them. -/
theorem append_twoBytes (op a b : Byte) : (op ++ (a ++ b ++ 0#72) : Word) = op ++ a ++ b ++ 0#72 := by
  rw [BitVec.append_assoc (x₁ := op ++ a), BitVec.append_assoc (x₁ := op), BitVec.append_assoc (x₁ := a)]
  rfl

theorem encode_wddec (a b : Byte) : encode (.wddec a b) = 0x23#8 ++ a ++ b ++ 0#72 :=
  append_twoBytes 0x23#8 a b

theorem answers_of_respond_byte {i : Instr} {s : State} {v : Byte} (h : exec i s = .next (respond (.byte v) s)) :
    Answers i s (okByte v) :=
  ⟨s.draws, h⟩

theorem wddec_answers (a b : Byte) (s : State) :
    Answers (.wddec a b) s (okByte (.ofNat 8 (wdDec a b.toNat))) :=
  answers_of_respond_byte rfl

/-- Settles O33: the number is `wdDec` of the byte and the offset. -/
theorem wddecDecodesThenSubtracts : Obligations.WddecDecodesThenSubtracts := fun s a b =>
  ⟨encode_wddec a b, wdDec a b.toNat, wdDec_isMod7 a b.toNat, wddec_answers a b s⟩

end Sys2Proof.Machine
end

section
/-! PROOFS. What any command does to the state (spec/10_state.md), read off `Effect`: which transactions it issues, which
responses it gives, which registers it writes. From these come the invariant of a step and who writes `WS` and `HALT`. -/

namespace Sys2Proof.Machine

/-! ### Response words -/

theorem wordStatus_errorWord (status info : Byte) : wordStatus (errorWord status info) = status :=
  (cut_byte status info).1

theorem legalResponse_of_ok {x : Word} (h : wordStatus x = 0x00) : legalResponse x = true := by
  simp [legalResponse, h]

theorem legalResponse_errorWord {status : Byte} (info : Byte) (h : status.toNat ≤ 3) :
    legalResponse (errorWord status info) = true := by
  have hlow : (errorWord status info).extractLsb' 0 80 = 0#80 := (cut_byte status info).2.2
  simp [legalResponse, wordStatus_errorWord, h, hlow]

/-! ### What an effect leaves in each field -/

variable {i : Instr} {s t : State}

theorem Effect.addr_eq (h : Effect i s t) : t.addr = s.addr := by
  cases h <;> rfl

theorem Effect.commands_eq (h : Effect i s t) : t.commands = s.commands := by
  cases h <;> rfl

/-- No command ends a wait (R311). -/
theorem Effect.blocked_of_blocked (h : Effect i s t) (hb : s.blocked = true) : t.blocked = true := by
  cases h with
  | waits => rfl
  | haltWaits => rfl
  | _ => exact hb

/-- R22, R270: `SETWS` is the only writer of `WS`. -/
theorem Effect.ws_eq_or_setws (h : Effect i s t) :
    t.ws = s.ws ∨ ∃ a : Byte, a.toNat ≤ 6 ∧ i = .setws a ∧ t.ws = .ofNat 3 a.toNat := by
  cases h with
  | setsWs a hi ha => exact .inr ⟨a, ha, hi, rfl⟩
  | _ => exact .inl rfl

theorem Effect.ws_le (h : Effect i s t) (hs : s.ws.toNat ≤ 6) : t.ws.toNat ≤ 6 := by
  rcases h.ws_eq_or_setws with hw | ⟨a, ha, -, hw⟩ <;> rw [hw]
  · exact hs
  · exact (Nat.mod_le a.toNat (2 ^ 3)).trans ha

/-- R24, R270: the datetime reads and `SETHALT` are the only writers of `HALT`. -/
theorem Effect.halt_eq_or_writer (h : Effect i s t) :
    t.halt = s.halt ∨ i ∈ datetimeReads ∨ ∃ a, i = .sethalt a := by
  cases h with
  | transfers r e v x n hb hi he ho hh hx => exact hh.imp_right .inl
  | haltSets a r r' e e' n hb hb' hi => exact .inr (.inr ⟨a, hi⟩)
  | _ => exact .inl rfl

/-- R86, R87: a command appends legal responses. -/
theorem Effect.responses_append (h : Effect i s t) :
    ∃ ws, t.responses = s.responses ++ ws ∧ ∀ w ∈ ws, legalResponse w = true := by
  cases h with
  | answers x n hi hx => exact ⟨[x], rfl, List.forall_mem_singleton.2 (legalResponse_of_ok hx.1)⟩
  | invalid => exact ⟨[_], rfl, List.forall_mem_singleton.2 (legalResponse_errorWord _ (by decide))⟩
  | setsWs => exact ⟨[okEmpty], rfl, List.forall_mem_singleton.2 (by decide)⟩
  | transfers r e v x n hb hi he ho hh hx =>
    exact ⟨[x], rfl, List.forall_mem_singleton.2 (legalResponse_of_ok hx.1)⟩
  | fails => exact ⟨[_], rfl, List.forall_mem_singleton.2 (legalResponse_errorWord _ (by decide))⟩
  | haltSets => exact ⟨[_], rfl, List.forall_mem_singleton.2 (by decide)⟩
  | haltFails => exact ⟨[_], rfl, List.forall_mem_singleton.2 (legalResponse_errorWord _ (by decide))⟩
  | waits => exact ⟨[], (List.append_nil _).symm, List.forall_mem_nil _⟩
  | haltWaits => exact ⟨[], (List.append_nil _).symm, List.forall_mem_nil _⟩

/-! ### The transactions of a command -/

/-- `ev` is what `i` issues from `s` to `t`: legal transactions of its row in order, a further one only after a
success, all of them when it answers `OK`, and an unanswered one only if the codec then waits (R40, R52, R262, R311). -/
structure Issues (i : Instr) (s t : State) (ev : List BusEvent) : Prop where
  append : t.events = s.events ++ ev
  ofRow : ev.map BusEvent.shape <+: transactionsOf i
  legal : ∀ e ∈ ev, legalEvent s.addr e = true
  succeeded : ∀ e ∈ ev.dropLast, e.outcome = .ok
  complete : ∀ w, t.responses = s.responses ++ [w] → wordStatus w = 0x00 → ev.map BusEvent.shape = transactionsOf i
  waits : ∀ e ∈ ev, e.outcome = .unanswered → t.blocked = true

theorem issues_none (ht : t.events = s.events) (hi : transactionsOf i = []) : Issues i s t [] where
  append := by simp [ht]
  ofRow := by simp
  legal := by simp
  succeeded := by simp
  complete := by simp [hi]
  waits := by simp

theorem issues_one {e : BusEvent} {more : List Shape} (ht : t.events = s.events ++ [e])
    (hi : transactionsOf i = e.shape :: more) (he : legalEvent s.addr e = true)
    (hc : ∀ w, t.responses = s.responses ++ [w] → wordStatus w = 0x00 → more = [])
    (hw : e.outcome = .unanswered → t.blocked = true) : Issues i s t [e] where
  append := ht
  ofRow := by simp [hi]
  legal := by simpa using he
  succeeded := by simp
  complete w hr h0 := by simp [hi, hc w hr h0]
  waits := by simpa using hw

/-- `SETHALT` past its read. -/
theorem issues_two {a : Byte} {e e' : BusEvent} (ht : t.events = s.events ++ [e] ++ [e']) (hi : i = .sethalt a)
    (hs : e.shape = shapeT3) (hs' : e'.shape = shapeT4) (he : legalEvent s.addr e = true)
    (he' : legalEvent s.addr e' = true) (ho : e.outcome = .ok) (hw : e'.outcome = .unanswered → t.blocked = true) :
    Issues i s t [e, e'] := by
  have hrow : [e, e'].map BusEvent.shape = transactionsOf i := by simp [hi, hs, hs', transactionsOf]
  exact {
    append := by simp [ht]
    ofRow := hrow ▸ List.prefix_rfl
    legal := by simp [he, he']
    succeeded := by simp [ho]
    complete := fun _ _ _ => hrow
    waits := by simpa [ho] using hw }

theorem Effect.issues (h : Effect i s t) : ∃ ev, Issues i s t ev := by
  cases h with
  | answers x n hi hx => exact ⟨[], issues_none rfl hi⟩
  | invalid c hi => exact ⟨[], issues_none rfl hi⟩
  | setsWs a hi ha => exact ⟨[], issues_none rfl (by rw [hi]; rfl)⟩
  | transfers r e v x n hb hi he ho => exact ⟨[e], issues_one rfl hi he (fun _ _ _ => rfl) (by simp [ho])⟩
  | fails c e n more hb hi he ho =>
    refine ⟨[e], issues_one rfl hi he (fun w hr h0 => ?_) (by simp [ho])⟩
    have hw : errorWord 0x02 c = w := by simpa [afterOne] using hr
    rw [← hw, wordStatus_errorWord] at h0
    exact absurd h0 (by decide)
  | waits e n more hb hi he ho => exact ⟨[e], issues_one rfl hi he (fun w hr => by simp at hr) fun _ => rfl⟩
  | haltSets a r r' e e' n hb hb' hi hs hs' he he' ho ho' =>
    exact ⟨_, issues_two rfl hi hs hs' he he' ho (by simp [ho'])⟩
  | haltFails a c r e e' n hb hb' hi hs hs' he he' ho ho' =>
    exact ⟨_, issues_two rfl hi hs hs' he he' ho (by simp [ho'])⟩
  | haltWaits a r e e' n hb hb' hi hs hs' he he' ho ho' =>
    exact ⟨_, issues_two rfl hi hs hs' he he' ho fun _ => rfl⟩

/-! ### The invariant -/

theorem Effect.keeps_inv (h : Effect i s t) (hs : s.Inv) : t.Inv := by
  obtain ⟨hws, hevents, hresponses, hwaiting⟩ := hs
  obtain ⟨ev, hev⟩ := h.issues
  obtain ⟨ws, hr, hlegal⟩ := h.responses_append
  refine ⟨h.ws_le hws, ?_, ?_, ?_⟩
  · rw [hev.append, h.addr_eq]
    exact List.forall_mem_append.2 ⟨hevents, hev.legal⟩
  · rw [hr]
    exact List.forall_mem_append.2 ⟨hresponses, hlegal⟩
  · rw [hev.append]
    exact List.forall_mem_append.2 ⟨fun e he ho => h.blocked_of_blocked (hwaiting e he ho), hev.waits⟩

/-- Taking a word off the host's list is no part of the invariant. -/
theorem inv_commands (rest : List Word) (hs : s.Inv) : { s with commands := rest }.Inv := hs

theorem inv_respond_errorWord {status : Byte} (info : Byte) (h : status.toNat ≤ 3) (hs : s.Inv) :
    { s with responses := s.responses ++ [errorWord status info] }.Inv := by
  obtain ⟨hws, hevents, hresponses, hwaiting⟩ := hs
  exact ⟨hws, hevents,
    List.forall_mem_append.2 ⟨hresponses, List.forall_mem_singleton.2 (legalResponse_errorWord info h)⟩, hwaiting⟩

/-- Settles O13: a step does nothing, answers an illegal word, or has one command's effect. -/
theorem stepKeepsTheInvariant : Obligations.StepKeepsTheInvariant := by
  intro s t hs ht
  rcases step_effect s with ⟨-, h⟩ | ⟨w, rest, -, -, ⟨-, -, h⟩ | ⟨i, u, -, h, hE⟩⟩ <;>
    cases h.symm.trans ht
  · exact hs
  · exact inv_respond_errorWord _ (by decide) (inv_commands rest hs)
  · exact hE.keeps_inv (inv_commands rest hs)

/-! ### One command -/

theorem effect_of_exec (h : exec i s = .next t) : Effect i s t := by
  obtain ⟨u, hu, hE⟩ := exec_effect i s
  cases hu.symm.trans h
  exact hE

/-- Settles O18: the writers of the two registers are cases of `Effect`. -/
theorem onlyTheirCommandsWriteCodecState : Obligations.OnlyTheirCommandsWriteCodecState := by
  intro i s t h
  have hE := effect_of_exec h
  refine ⟨fun hne => ?_, hE.halt_eq_or_writer.resolve_left⟩
  obtain ⟨a, ha, hi, -⟩ := hE.ws_eq_or_setws.resolve_left hne
  exact ⟨a, ha, hi⟩

/-- Settles O19: what `Issues` says of every effect. -/
theorem commandsIssueTheirTransactions : Obligations.CommandsIssueTheirTransactions := by
  intro i s t h
  obtain ⟨ev, hev⟩ := (effect_of_exec h).issues
  exact ⟨ev, hev.append, hev.ofRow, hev.legal, hev.succeeded, hev.complete⟩

end Sys2Proof.Machine
end

section
/-! PROOFS. The records decide nothing (spec/10_state.md R26): every operation of the codec commutes with putting a
history before the records of a state, and so does every command. -/

namespace Sys2Proof.Machine

/-- `s` with the responses `p` and the transactions `q` before its own, and the words `c` to come. -/
def State.withHistory (p : List Word) (q : List BusEvent) (c : List Word) (s : State) : State :=
  { s with responses := p ++ s.responses, events := q ++ s.events, commands := c }

/-- The same end of a transaction, with its state changed by `f`. -/
def BusResult.mapState (f : State → State) : BusResult → BusResult
  | .done r s => .done r (f s)
  | .failed e s => .failed e (f s)
  | .silent s => .silent (f s)

section
variable (p : List Word) (q : List BusEvent) (c : List Word) (s : State)

/-! ### The operations -/

theorem respond_withHistory (r : Response) : respond r (s.withHistory p q c) = (respond r s).withHistory p q c := by
  simp [respond, State.withHistory]

theorem raiseError_withHistory (x : ErrorKind) :
    raiseError x (s.withHistory p q c) = (raiseError x s).withHistory p q c :=
  respond_withHistory p q c s _

theorem pushEvent_withHistory (e : BusEvent) :
    pushEvent e (s.withHistory p q c) = (pushEvent e s).withHistory p q c := by
  simp [pushEvent, State.withHistory]

theorem pushEvent_popAnswer_withHistory (e : BusEvent) :
    pushEvent e (popAnswer (s.withHistory p q c)) = (pushEvent e (popAnswer s)).withHistory p q c :=
  pushEvent_withHistory p q c (popAnswer s) e

theorem block_withHistory : block (s.withHistory p q c) = (block s).withHistory p q c := rfl

theorem withHistory_addr : (s.withHistory p q c).addr = s.addr := rfl

theorem busAnswerAt_withHistory (k : Nat) : busAnswerAt (s.withHistory p q c) k = busAnswerAt s k := rfl

theorem memRead_withHistory (off n : Byte) :
    memRead off n (s.withHistory p q c) = (memRead off n s).mapState (State.withHistory p q c) := by
  cases h : busAnswerAt s 0 <;>
    simp [memRead, h, BusResult.mapState, busAnswerAt_withHistory, withHistory_addr, pushEvent_popAnswer_withHistory,
      block_withHistory]

theorem memWrite_withHistory (off : Byte) (buf : List Byte) :
    memWrite off buf (s.withHistory p q c) = (memWrite off buf s).mapState (State.withHistory p q c) := by
  cases h : busAnswerAt s 0 <;>
    simp [memWrite, h, BusResult.mapState, busAnswerAt_withHistory, withHistory_addr, pushEvent_popAnswer_withHistory,
      block_withHistory]

/-- The rest of a command commutes with the history if what it does after a success does. -/
theorem afterBus_withHistory (b : BusResult) {go go' : TimeRegs → State → State}
    (h : ∀ r s1, go' r (State.withHistory p q c s1) = (go r s1).withHistory p q c) :
    afterBus (b.mapState (State.withHistory p q c)) go' = (afterBus b go).withHistory p q c := by
  cases b with
  | done r s1 => exact h r s1
  | failed e s1 => exact raiseError_withHistory p q c s1 _
  | silent s1 => rfl

/-! ### The shared bodies of commands -/

theorem readDateTime_withHistory (answer : DateTime → Response) :
    readDateTime answer (s.withHistory p q c) = (readDateTime answer s).withHistory p q c := by
  rw [readDateTime, memRead_withHistory]
  exact afterBus_withHistory p q c _ fun r s1 =>
    respond_withHistory p q c (spendDraws 1 (setHalt (haltBit r.seconds) s1)) _

theorem write_withHistory (off : Byte) (buf : List Byte) (f : State → State)
    (hf : ∀ s1, f (State.withHistory p q c s1) = (f s1).withHistory p q c) :
    afterBus (memWrite off buf (s.withHistory p q c)) (fun _ s1 => respond .empty (f s1)) =
      (afterBus (memWrite off buf s) fun _ s1 => respond .empty (f s1)).withHistory p q c := by
  rw [memWrite_withHistory]
  refine afterBus_withHistory p q c _ fun _ s1 => ?_
  rw [hf, respond_withHistory]

theorem sethalt_withHistory (a : Byte) :
    ∃ t, exec (.sethalt a) s = .next t ∧ exec (.sethalt a) (s.withHistory p q c) = .next (t.withHistory p q c) := by
  refine ⟨_, rfl, congrArg Host.Outcome.next ?_⟩
  rw [memRead_withHistory]
  exact afterBus_withHistory p q c _ fun _ s1 => write_withHistory p q c s1 _ _ (setHalt (requested a)) fun _ => rfl

/-- A command on a state with a history does what it does without, and the history stands before it. -/
theorem exec_withHistory (i : Instr) :
    ∃ t, exec i s = .next t ∧ exec i (s.withHistory p q c) = .next (t.withHistory p q c) := by
  cases i with
  | getdt | getyear | getmonth | getday | gethour | getmin | getsec | getwday | getyday =>
    exact ⟨_, rfl, congrArg _ (readDateTime_withHistory p q c s _)⟩
  | getws | wddec | b2d | isleap | gethalt | ctlupk =>
    exact ⟨_, rfl, congrArg _ (respond_withHistory p q c s _)⟩
  | wdenc | d2b | doy => exact ⟨_, rfl, congrArg _ (respond_withHistory p q c (spendDraws 1 s) _)⟩
  | setdt =>
    exact ⟨_, rfl, congrArg (fun u => Host.Outcome.next (spendDraws encodeDraws u))
      (write_withHistory p q c s 0 _ id fun _ => rfl)⟩
  | sethalt a => exact sethalt_withHistory p q c s a
  | setws a =>
    simp only [exec, execSetws]
    split
    · exact ⟨_, rfl, congrArg _ (respond_withHistory p q c (setWs _ s) _)⟩
    · exact ⟨_, rfl, congrArg _ (respond_withHistory p q c s _)⟩
  | sqw a b =>
    simp only [exec, execSqw]
    split
    · exact ⟨_, rfl, congrArg _ (write_withHistory p q c s 7 _ id fun _ => rfl)⟩
    · exact ⟨_, rfl, congrArg _ (respond_withHistory p q c s _)⟩
  | ctlpk a b =>
    simp only [exec, execCtlpk]
    split
    · exact ⟨_, rfl, congrArg _ (respond_withHistory p q c s _)⟩
    · exact ⟨_, rfl, congrArg _ (respond_withHistory p q c s _)⟩

end

/-- Settles O20: both runs are of one state, without a history and with one before it. -/
theorem historyDoesNotMatter : Obligations.HistoryDoesNotMatter := by
  intro i s p q c
  obtain ⟨t, ht, hh⟩ := exec_withHistory p q c { s with responses := [], events := [], commands := [] } i
  refine ⟨t, ht, (effect_of_exec ht).commands_eq, ?_⟩
  simpa [State.withHistory] using hh

end Sys2Proof.Machine
end

section
/-! PROOFS. The step and the two ports (spec/20_memory.md): which command a step executes, what a run of any length
leaves of the records, and what is left of a command that the bus never answers. -/

namespace Sys2Proof.Machine

/-! ### One step -/

/-- Settles O10: an idle codec takes the word, and the decoder names the command. -/
theorem stepExecutesTheDecodedCommand : Obligations.StepExecutesTheDecodedCommand := by
  intro s w rest i hb hc hd
  have ht : takeCommand s = some (w, { s with commands := rest }) :=
    (takeCommand_some_iff s _ w).2 ⟨hb, rest, hc, rfl⟩
  simp only [step, ht, hd]

/-- R311: a codec that waits for the bus takes no command. -/
theorem step_of_blocked {s : State} (h : s.blocked = true) : step s = .next s := by
  have ht : takeCommand s = none := (takeCommand_none_iff s).2 (.inl h)
  simp only [step, ht]

/-! ### Runs -/

/-- `t` has on record all that `s` has, before anything newer, and its words to come are the last of those of `s`. -/
structure State.Extends (s t : State) : Prop where
  events : s.events <+: t.events
  responses : s.responses <+: t.responses
  commands : t.commands <:+ s.commands

theorem State.Extends.refl (s : State) : s.Extends s :=
  ⟨List.prefix_rfl, List.prefix_rfl, List.suffix_rfl⟩

theorem State.Extends.trans {s t u : State} (h : s.Extends t) (h' : t.Extends u) : s.Extends u :=
  ⟨h.events.trans h'.events, h.responses.trans h'.responses, h'.commands.trans h.commands⟩

theorem Effect.state_extends {i : Instr} {s t : State} (h : Effect i s t) : s.Extends t := by
  obtain ⟨ev, hev⟩ := h.issues
  obtain ⟨ws, hr, -⟩ := h.responses_append
  exact ⟨⟨ev, hev.append.symm⟩, ⟨ws, hr.symm⟩, h.commands_eq ▸ List.suffix_rfl⟩

theorem extends_of_takes {s : State} {w : Word} {rest : List Word} (hc : s.commands = w :: rest) :
    s.Extends { s with commands := rest } :=
  ⟨List.prefix_rfl, List.prefix_rfl, hc ▸ List.suffix_cons w rest⟩

theorem extends_respond (r : Response) (s : State) : s.Extends (respond r s) :=
  ⟨List.prefix_rfl, List.prefix_append _ _, List.suffix_rfl⟩

theorem step_extends (s : State) : ∃ t, step s = .next t ∧ s.Extends t := by
  rcases step_effect s with ⟨-, h⟩ | ⟨w, rest, -, hc, ⟨-, -, h⟩ | ⟨i, t, -, h, hE⟩⟩
  · exact ⟨s, h, .refl s⟩
  · exact ⟨_, h, (extends_of_takes hc).trans (extends_respond (.error (.illegalCommand (wordOpcode w))) _)⟩
  · exact ⟨t, h, (extends_of_takes hc).trans hE.state_extends⟩

theorem run_extends (n : Nat) (s : State) : ∃ t, core.run n s = .next t ∧ s.Extends t := by
  induction n generalizing s with
  | zero => exact ⟨s, rfl, .refl s⟩
  | succ n ih =>
    obtain ⟨u, hu, hsu⟩ := step_extends s
    obtain ⟨t, ht, hut⟩ := ih u
    exact ⟨t, (run_succ core hu n).trans ht, hsu.trans hut⟩

/-- Settles O21: the three parts of `State.Extends`, along a run. -/
theorem runsOnlyAppend : Obligations.RunsOnlyAppend := by
  intro n s
  obtain ⟨t, ht, h⟩ := run_extends n s
  exact ⟨t, ht, h.events, h.responses, h.commands⟩

/-! ### A bus that never answers -/

/-- A command whose first transaction is never answered can only end as `Effect.waits` does. -/
theorem Effect.waits_of_silence {i : Instr} {s t : State} (h : Effect i s t) (hi : transactionsOf i ≠ [])
    (hb : busAnswerAt s 0 = .silence) :
    ∃ (e : BusEvent) (n : Nat),
      t = { s with blocked := true, bus := s.bus.tail, events := s.events ++ [e], draws := n } ∧
      (transactionsOf i).head? = some e.shape ∧ legalEvent s.addr e = true ∧ e.outcome = .unanswered := by
  cases h with
  | waits e n more _ hrow he ho => exact ⟨e, n, rfl, by rw [hrow]; rfl, he, ho⟩
  | answers _ _ hnone | invalid _ hnone => exact absurd hnone hi
  | setsWs a hset => exact absurd (by rw [hset]; rfl) hi
  | transfers _ _ _ _ _ hb' | fails _ _ _ _ hb' | haltSets _ _ _ _ _ _ hb' | haltFails _ _ _ _ _ _ hb'
    | haltWaits _ _ _ _ _ hb' => cases hb.symm.trans hb'

/-- A command without transactions responds and leaves the bus alone, whatever the bus would have done. -/
theorem Effect.responds_of_no_transactions {i : Instr} {s t : State} (h : Effect i s t) (hi : transactionsOf i = []) :
    ∃ w, t.responses = s.responses ++ [w] ∧ t.events = s.events ∧ t.bus = s.bus := by
  cases h with
  | answers | invalid | setsWs => exact ⟨_, rfl, rfl, rfl⟩
  | transfers _ _ _ _ _ _ hrow | fails _ _ _ _ _ hrow | waits _ _ _ _ hrow => cases hi.symm.trans hrow
  | haltSets _ _ _ _ _ _ _ _ hset | haltFails _ _ _ _ _ _ _ _ hset | haltWaits _ _ _ _ _ _ _ hset =>
    rw [hset] at hi; cases hi

/-- R205, R311: `SETHALT` whose write is never answered, with the bytes of both transactions on record. -/
theorem sethalt_write_silence (a : Byte) {s : State} {r : TimeRegs} (hr : busAnswerAt s 0 = .success r)
    (hw : busAnswerAt s 1 = .silence) :
    exec (.sethalt a) s = .next { s with
      blocked := true, bus := s.bus.tail.tail, draws := s.draws + 2
      events := s.events ++ [⟨.read, s.addr, 0, 1, [r.seconds], .ok⟩,
        ⟨.write, s.addr, 0, 1, [if a = 0 then r.seconds &&& 0x7F else r.seconds ||| 0x80], .unanswered⟩] } := by
  have hw' : ∀ e, busAnswerAt (pushEvent e (popAnswer s)) 0 = .silence := fun e =>
    (busAnswerAt_after s _ 0 rfl rfl).trans hw
  rw [exec, execSethalt, memRead_success hr, afterBus_done, memWrite_silence (hw' _), afterBus_silent,
    haltSet_requested]
  simp [block, pushEvent, popAnswer, replyBytes, timeBytes]

/-- Settles O23: its three parts, from what a command's effect can be on a silent bus, from the run of `SETHALT`, and
from what the effect of a command without transactions can be. -/
theorem silentBusLeavesTheCommandWaiting : Obligations.SilentBusLeavesTheCommandWaiting := by
  refine ⟨fun i s hi hb => ?_, fun a s r hr hw => ?_, fun i s hi => ?_⟩
  · obtain ⟨t, ht, hE⟩ := exec_effect i s
    obtain ⟨e, n, hte, hhead, he, ho⟩ := hE.waits_of_silence hi hb
    exact ⟨t, e, n, ht, hte, hhead, he, ho, step_of_blocked (by rw [hte])⟩
  · exact ⟨_, _, sethalt_write_silence a hr hw, rfl, step_of_blocked rfl⟩
  · obtain ⟨t, ht, hE⟩ := exec_effect i s
    obtain ⟨w, hw, hev, hbus⟩ := hE.responds_of_no_transactions hi
    exact ⟨t, w, ht, hw, hev, hbus⟩

/-! ### The halt bit that SETDT writes -/

/-- R164 (e): a code has bit 7 set from 80 on. -/
theorem d2b_bit7 {v : Nat} (k : Nat) (h : v ≤ 99) : (d2b k v).getLsbD 7 = decide (80 ≤ v) := by
  rw [bit7_eq, d2b_of_le k h, bcdCode_toNat h]
  apply decide_eq_decide.mpr; omega

/-- R202: packing ORs the flag into bit 7. -/
theorem haltPack_bit7 (b : Byte) (h : Bool) : (haltPack b h).getLsbD 7 = (h || b.getLsbD 7) := by
  rw [haltPack_eq, BitVec.getLsbD_or, Bool.or_comm]
  cases h <;> rfl

/-- A command of one write records that write with its bytes, however it ends, and leaves `HALT` as it is. -/
theorem write_recorded (off : Byte) (buf : List Byte) (n : Nat) (s : State) :
    let t := spendDraws n (afterBus (memWrite off buf s) fun _ s1 => respond .empty s1)
    t.halt = s.halt ∧ ∃ o, t.events = s.events ++ [⟨.write, s.addr, off, .ofNat 8 buf.length, buf, o⟩] := by
  rcases memWrite_cases off buf s with ⟨r, -, hm⟩ | ⟨c, -, hm⟩ | ⟨-, hm⟩ <;> rw [hm]
  · exact ⟨rfl, .ok, rfl⟩
  · exact ⟨rfl, .failed c, rfl⟩
  · exact ⟨rfl, .unanswered, rfl⟩

/-- Settles O29: the one write is on record whatever the bus did, and its first byte is a code with the flag ORed in. -/
theorem setdtWritesTheCachedHaltFlag : Obligations.SetdtWritesTheCachedHaltFlag := by
  intro s year month day hour minute second weekday yearday hsec
  obtain ⟨hhalt, o, hev⟩ := write_recorded 0
    (timeBytes (encodeDateTime s.draws s.ws s.halt year month day hour minute second weekday)) encodeDraws s
  refine ⟨_, _, _, _, rfl, hev, rfl, rfl, rfl, rfl, ?_, hhalt⟩
  exact (haltPack_bit7 _ s.halt).trans (by rw [d2b_bit7 s.draws hsec])

end Sys2Proof.Machine
end

section
/-! PROOFS. The command word (spec/30_encoding.md R80 to R93): decoder and encoder are inverse, and the decoder accepts
exactly the words of the opcode table's rows. -/

namespace Sys2Proof.Machine

open Sys2Proof.Laws.TableRow (row row_eq)

/-! ### Decoding an encoded command -/

/-- R93, from commands to words and back. -/
theorem decode_encode (i : Instr) : decode (encode i) = .ok i := by
  have hop : mnemonicOf (wordOpcode (encode i)) = some i.mnemonic := by
    rw [wordOpcode_encode, mnemonicOf_opcodeOf]
  exact (decode_ok_iff _ _).2 ⟨i.mnemonic, hop, reservedClear_encode i, instrOf_encode i⟩

/-! ### Encoding a decoded word -/

theorem wordOpcode_append_low88 (w : Word) : wordOpcode w ++ w.extractLsb' 0 88 = w :=
  BitVec.extractLsb'_append_extractLsb'

theorem reservedClear_iff (f : Format) (w : Word) :
    reservedClear f w = true ↔ w.extractLsb' 0 (reservedWidth f) = 0#(reservedWidth f) :=
  beq_iff_eq

/-- Two neighbouring cuts, the lower one of `k` bits from `start`. -/
theorem extract_append_extract (w : Word) (start k n : Nat) :
    w.extractLsb' (start + k) n ++ w.extractLsb' start k = w.extractLsb' start (n + k) :=
  BitVec.extractLsb'_append_extractLsb'_eq_extractLsb' rfl

/-- Operand bits above `k` reserved ones are all the bits from bit 0 up. -/
theorem extract_append_zero {w : Word} {k : Nat} (n : Nat) (h : w.extractLsb' 0 k = 0#k) :
    w.extractLsb' k n ++ 0#k = w.extractLsb' 0 (n + k) := by
  simpa [h] using extract_append_extract w 0 k n

theorem fieldA_append_fieldB (w : Word) : fieldA w ++ fieldB w = w.extractLsb' 72 16 :=
  extract_append_extract w 72 8 8

theorem dateFields_append (w : Word) : fieldYear w ++ fieldMonth w ++ fieldDay w = w.extractLsb' 56 32 := by
  rw [fieldYear, fieldMonth, fieldDay, extract_append_extract w 64 8 16, extract_append_extract w 56 8 24]

theorem datetimeFields_append (w : Word) :
    fieldYear w ++ fieldMonth w ++ fieldDay w ++ fieldHour w ++ fieldMinute w ++ fieldSecond w ++ fieldWeekday w ++
      fieldYearday w = w.extractLsb' 8 80 := by
  rw [dateFields_append, fieldHour, fieldMinute, fieldSecond, fieldWeekday, fieldYearday,
    extract_append_extract w 48 8 32, extract_append_extract w 40 8 40, extract_append_extract w 32 8 48,
    extract_append_extract w 24 8 56, extract_append_extract w 8 16 64]

/-- The operands cut out of a word stand in it without a gap, so with clear reserved bits they make up its low 88 bits
(R81, R83). -/
theorem operandBits_instrOf {m : Mnemonic} {w : Word} (h : reservedClear m.format w = true) :
    operandBits (instrOf m w) = w.extractLsb' 0 88 := by
  have h0 := (reservedClear_iff _ w).1 h
  cases m with
  | getdt | getyear | getmonth | getday | gethour | getmin | getsec | getwday | getyday | getws | gethalt =>
    exact h0.symm
  | setws | d2b | b2d | sethalt | ctlupk => exact extract_append_zero 8 h0
  | isleap => exact extract_append_zero 16 h0
  | wdenc | wddec | sqw | ctlpk =>
    exact (congrArg (· ++ 0#72) (fieldA_append_fieldB w)).trans (extract_append_zero 16 h0)
  | doy => exact (congrArg (· ++ 0#56) (dateFields_append w)).trans (extract_append_zero 32 h0)
  | setdt => exact (congrArg (· ++ 0#8) (datetimeFields_append w)).trans (extract_append_zero 80 h0)

/-- R93, from words to commands and back. -/
theorem encode_of_decode {w : Word} {i : Instr} (h : decode w = .ok i) : encode i = w := by
  obtain ⟨m, hm, hclear, rfl⟩ := (decode_ok_iff w i).1 h
  rw [encode, mnemonic_instrOf, opcodeOf_of_mnemonicOf hm, operandBits_instrOf hclear, wordOpcode_append_low88]

/-- Settles O1: the two directions of R93. -/
theorem decoderAndEncoderAreInverse : Obligations.DecoderAndEncoderAreInverse :=
  ⟨decode_encode, fun _ _ => encode_of_decode⟩

/-! ### The opcode table -/

theorem append_eq_append_iff {a b : Nat} (x x' : BitVec a) (y y' : BitVec b) :
    x ++ y = x' ++ y' ↔ x = x' ∧ y = y' := by
  refine ⟨fun h => ⟨?_, ?_⟩, fun ⟨hx, hy⟩ => by rw [hx, hy]⟩
  · rw [← BitVec.extractLsb'_append_eq_left (a := x) (b := y), h, BitVec.extractLsb'_append_eq_left]
  · rw [← BitVec.extractLsb'_append_eq_right (a := x) (b := y), h, BitVec.extractLsb'_append_eq_right]

/-- A mask of the `k` low bits keeps nothing of `x` exactly when those bits are 0. -/
theorem and_lowMask_eq_zero_iff {n k : Nat} (x : BitVec n) (hk : k ≤ n) :
    x &&& BitVec.allOnes n >>> (n - k) = 0#n ↔ x.extractLsb' 0 k = 0#k := by
  have hmask : (BitVec.allOnes n >>> (n - k)).toNat = 2 ^ k - 1 := by
    rw [BitVec.toNat_ushiftRight, BitVec.toNat_allOnes, Nat.shiftRight_eq_div_pow, ← Nat.pow_sub_mul_pow 2 hk]
    simpa using Nat.mul_sub_div 0 (2 ^ (n - k)) (2 ^ k) (by positivity)
  rw [← BitVec.toNat_inj, ← BitVec.toNat_inj, BitVec.toNat_and, hmask, Nat.and_two_pow_sub_one_eq_mod,
    extract_toNat]
  simp

/-- Under its row's mask a word is the row's match value when it has the row's opcode and clear reserved bits. -/
theorem masked_eq_row_iff (m : Mnemonic) (w : Word) :
    w &&& (row m).2 = (row m).1 ↔ wordOpcode w = opcodeOf m ∧ reservedClear m.format w = true := by
  have hk : reservedWidth m.format ≤ 88 := by cases m <;> decide
  have hop : wordOpcode w &&& 0xFF#8 = wordOpcode w := BitVec.and_allOnes
  have hlow : (w.extractLsb' 0 88).extractLsb' 0 (reservedWidth m.format) =
      w.extractLsb' 0 (reservedWidth m.format) := by
    conv_rhs => rw [← wordOpcode_append_low88 w]
    exact (extract_append_low _ _ _ _ ((Nat.zero_add _).trans_le hk)).symm
  calc w &&& (row m).2 = (row m).1
    _ ↔ (wordOpcode w ++ w.extractLsb' 0 88) &&& (0xFF#8 ++ BitVec.allOnes 88 >>> (88 - reservedWidth m.format)) =
        opcodeOf m ++ 0#88 := by rw [wordOpcode_append_low88, row_eq]
    _ ↔ wordOpcode w = opcodeOf m ∧ reservedClear m.format w = true := by
      rw [BitVec.and_append, append_eq_append_iff, hop, and_lowMask_eq_zero_iff _ hk, hlow, reservedClear_iff]

/-- The mnemonics in the order of the table's rows. -/
def mnemonicsInOrder : List Mnemonic :=
  [.getdt, .setdt, .getyear, .getmonth, .getday, .gethour, .getmin, .getsec, .getwday, .getyday, .getws, .setws,
    .wdenc, .wddec, .d2b, .b2d, .isleap, .doy, .gethalt, .sethalt, .sqw, .ctlpk, .ctlupk]

theorem opcodeRows_eq_map : opcodeRows = mnemonicsInOrder.map row := rfl

theorem mem_mnemonicsInOrder (m : Mnemonic) : m ∈ mnemonicsInOrder := by
  cases m <;> decide

/-- R90: the table has one row for each mnemonic. -/
theorem legalWord_iff (w : Word) :
    LegalWord w ↔ ∃ m, wordOpcode w = opcodeOf m ∧ reservedClear m.format w = true := by
  simp [LegalWord, opcodeRows_eq_map, mem_mnemonicsInOrder, masked_eq_row_iff]

theorem mnemonicOf_eq_some_iff (op : Byte) (m : Mnemonic) : mnemonicOf op = some m ↔ op = opcodeOf m :=
  ⟨fun h => (opcodeOf_of_mnemonicOf h).symm, fun h => h ▸ mnemonicOf_opcodeOf m⟩

/-- Settles O2: a row's words are those of its opcode with clear reserved bits, which is what the decoder asks for. -/
theorem legalWordsAreTheOpcodeTable : Obligations.LegalWordsAreTheOpcodeTable := by
  intro w
  simp only [legalWord_iff, decode_ok_iff, mnemonicOf_eq_some_iff]
  constructor
  · rintro ⟨i, m, hop, hclear, -⟩
    exact ⟨m, hop, hclear⟩
  · rintro ⟨m, hop, hclear⟩
    exact ⟨instrOf m w, m, hop, hclear, rfl⟩

/-- Settles O4: each word, decoded. -/
theorem specWordsDecode : Obligations.SpecWordsDecode := by
  refine ⟨?_, ?_, ?_, ?_, ?_, ?_, ?_, ?_⟩ <;> decide

end Sys2Proof.Machine
end

section
/-! PROOFS. The response word (spec/30_encoding.md R84 to R87): its five `OK` layouts and the error layout, and which of
them a command's answer has. -/

namespace Sys2Proof.Machine

/-- Settles O5: the words of R85, cut into their fields. -/
theorem okResponseLayout : Obligations.OkResponseLayout :=
  ⟨encodeResponse_empty, fun v => cut_byte statusOk v, fun v => cut_half statusOk v,
    fun d => cut_dateTime statusOk d.year d.month d.day d.hour d.minute d.second d.weekday d.yearday,
    fun c => cut_control statusOk c.level c.enable c.rs c.rate⟩

/-- R87: the fields of an error's word. -/
theorem cut_error (x : ErrorKind) :
    wordStatus (encodeResponse (.error x)) = errorStatus x ∧ wordInfo (encodeResponse (.error x)) = errorInfo x ∧
      (encodeResponse (.error x)).extractLsb' 0 80 = 0#80 :=
  cut_byte (errorStatus x) (errorInfo x)

/-- Settles O6: the codes of R251 to R253 in the layout of R87. -/
theorem errorResponseLayout : Obligations.ErrorResponseLayout := by
  refine ⟨fun x => (cut_error x).2.2, fun x => ?_, fun x => ?_⟩
  · rw [(cut_error x).1]
    cases x <;> rfl
  · rw [(cut_error x).2.1]
    cases x with
    | invalidArgument cause => cases cause <;> rfl
    | busError e => rfl
    | illegalCommand op => rfl

/-- An answer with status `OK` has the format of its command's row (R85, R90). -/
theorem Effect.okOf_of_ok {i : Instr} {s t : State} {w : Word} (h : Effect i s t)
    (hr : t.responses = s.responses ++ [w]) (hw : wordStatus w = 0x00) : OkOf i w := by
  cases h with
  | answers x n hi hx | transfers r e v x n hb hi he ho hh hx =>
    cases List.append_cancel_left hr
    exact hx
  | setsWs a hi =>
    cases List.append_cancel_left hr
    exact okOf_empty (hi ▸ rfl)
  | haltSets a r r' e e' n hb hb' hi =>
    cases List.append_cancel_left hr
    exact okOf_empty (hi ▸ rfl)
  | invalid | fails | haltFails =>
    cases List.append_cancel_left hr
    rw [wordStatus_errorWord] at hw
    exact absurd hw (by decide)
  | waits | haltWaits => simp at hr

/-- Settles O7: the format is the second half of `OkOf`. -/
theorem okResponsesHaveTheirRowsFormat : Obligations.OkResponsesHaveTheirRowsFormat :=
  fun _ _ _ _ h hr hw => ((effect_of_exec h).okOf_of_ok hr hw).2

end Sys2Proof.Machine
end

section
/-! PROOFS. Every command gets one response (spec/30_encoding.md R84, spec/60_exceptions.md R250, R253): a legal word
by its command's effect, an illegal one by `ILLEGAL_COMMAND`, and only a silent bus holds one back (R311). -/

namespace Sys2Proof.Machine

/-- What the step of an idle codec with a next word can do. -/
theorem step_effect_of_command {s : State} {w : Word} {rest : List Word} (hb : s.blocked = false)
    (hc : s.commands = w :: rest) :
    (∃ why, decode w = .error why ∧ step s = .next
      { s with commands := rest, responses := s.responses ++ [errorWord 0x03 (wordOpcode w)] }) ∨
    ∃ i t, decode w = .ok i ∧ step s = .next t ∧ Effect i { s with commands := rest } t := by
  rcases step_effect s with ⟨hn, -⟩ | ⟨w', rest', -, hc', h⟩
  · simp [takeCommand_none_iff, hb, hc] at hn
  · cases hc.symm.trans hc'
    exact h

/-- Settles O3: such a word does not decode, so the step is the first case of `step_effect_of_command`. -/
theorem illegalWordIsAnsweredAndIgnored : Obligations.IllegalWordIsAnsweredAndIgnored := by
  refine ⟨by unfold LegalWord; decide, by unfold LegalWord; decide, fun s w rest hb hc hw => ?_⟩
  rcases step_effect_of_command hb hc with ⟨-, -, h⟩ | ⟨i, -, hd, -, -⟩
  · exact h
  · exact absurd ((legalWordsAreTheOpcodeTable w).1 ⟨i, hd⟩) hw

section
variable {i : Instr} {s t : State}

theorem Effect.responds_or_waits (h : Effect i s t) (hb : s.blocked = false) :
    (t.blocked = false ∧ ∃ x, t.responses = s.responses ++ [x]) ∨ (t.blocked = true ∧ t.responses = s.responses) := by
  cases h with
  | waits | haltWaits => exact .inr ⟨rfl, rfl⟩
  | _ => exact .inl ⟨hb, _, rfl⟩

/-- A command takes at most two answers of the bus. -/
theorem Effect.bus_eq_drop (h : Effect i s t) : ∃ k ≤ 2, t.bus = s.bus.drop k := by
  cases h with
  | answers | invalid | setsWs => exact ⟨0, by decide, rfl⟩
  | transfers | fails | waits => exact ⟨1, by decide, List.drop_one.symm⟩
  | haltSets | haltFails | haltWaits => exact ⟨2, by decide, by simp [← List.drop_one]⟩

/-- R311: only a bus that leaves one of the command's two transactions unanswered makes the codec wait. -/
theorem Effect.blocked_eq (h : Effect i s t) (h0 : busAnswerAt s 0 ≠ .silence) (h1 : busAnswerAt s 1 ≠ .silence) :
    t.blocked = s.blocked := by
  cases h with
  | waits _ _ _ hb => exact absurd hb h0
  | haltWaits _ _ _ _ _ _ hb' => exact absurd hb' h1
  | _ => rfl

end

/-- Settles O12: an illegal word is answered, a command responds or waits. -/
theorem oneResponsePerCommand : Obligations.OneResponsePerCommand := by
  intro s w rest hb hc
  rcases step_effect_of_command hb hc with ⟨-, -, h⟩ | ⟨i, t, -, h, hE⟩
  · exact ⟨_, h, rfl, .inl ⟨hb, _, rfl⟩⟩
  · exact ⟨t, h, hE.commands_eq, hE.responds_or_waits hb⟩

/-- The codec is idle and the bus has two answers, none of them silence, for each word to come. -/
structure State.Served (s : State) : Prop where
  idle : s.blocked = false
  enough : 2 * s.commands.length ≤ s.bus.length
  answered : ∀ a ∈ s.bus, a ≠ .silence

/-- The bus has the two answers of the word taken, and two for each of the rest. -/
theorem State.Served.length_le {s : State} {w : Word} {rest : List Word} (hs : s.Served)
    (hc : s.commands = w :: rest) : 2 * (rest.length + 1) ≤ s.bus.length := by
  simpa [hc] using hs.enough

theorem Effect.keeps_served {i : Instr} {s t : State} {w : Word} {rest : List Word} (hs : s.Served)
    (hc : s.commands = w :: rest) (h : Effect i { s with commands := rest } t) : t.Served := by
  have hlen := hs.length_le hc
  obtain ⟨k, hk, hbus⟩ := h.bus_eq_drop
  refine ⟨?_, ?_, fun a ha => hs.answered a (List.mem_of_mem_drop (hbus ▸ ha))⟩
  · exact (h.blocked_eq (hs.answered _ (busAnswerAt_mem (by omega)))
      (hs.answered _ (busAnswerAt_mem (by omega)))).trans hs.idle
  · rw [h.commands_eq, hbus, List.length_drop]
    simp only; omega

/-- One step of a served codec takes one word and gives one response. -/
theorem step_of_served {s : State} {w : Word} {rest : List Word} (hs : s.Served) (hc : s.commands = w :: rest) :
    ∃ t, step s = .next t ∧ t.Served ∧ t.commands = rest ∧ t.responses.length = s.responses.length + 1 := by
  rcases step_effect_of_command hs.idle hc with ⟨-, -, h⟩ | ⟨i, t, -, h, hE⟩
  · have hlen := hs.length_le hc
    exact ⟨_, h, ⟨hs.idle, by simp only; omega, hs.answered⟩, rfl, by simp⟩
  · have ht := hE.keeps_served hs hc
    refine ⟨t, h, ht, hE.commands_eq, ?_⟩
    rcases hE.responds_or_waits hs.idle with ⟨-, x, hx⟩ | ⟨hw, -⟩
    · simp [hx]
    · exact absurd (ht.idle.symm.trans hw) Bool.false_ne_true

theorem run_of_served {s : State} (hs : s.Served) :
    ∃ t, core.run s.commands.length s = .next t ∧ t.commands = [] ∧ t.blocked = false ∧
      t.responses.length = s.responses.length + s.commands.length := by
  induction hc : s.commands generalizing s with
  | nil => exact ⟨s, rfl, hc, hs.idle, rfl⟩
  | cons w rest ih =>
    obtain ⟨u, hu, hus, huc, hur⟩ := step_of_served hs hc
    obtain ⟨t, ht, htc, htb, htr⟩ := ih hus huc
    refine ⟨t, (run_succ core hu _).trans ht, htc, htb, ?_⟩
    rw [htr, hur, List.length_cons]; omega

/-- Settles O22: by induction on the words to come, each step keeping `State.Served`. -/
theorem everyCommandIsAnsweredWhenTheBusAnswers : Obligations.EveryCommandIsAnsweredWhenTheBusAnswers :=
  fun _ hidle henough hanswered => run_of_served ⟨hidle, henough, hanswered⟩

end Sys2Proof.Machine
end

section
/-! PROOFS. Written lines (spec/30_encoding.md R81, R82, R100, R102): which of them are well formed, and that the
well-formed ones assemble. -/

namespace Sys2Proof.Machine

/-! ### Well-formed lines -/

/-- A field's value fits its field (R82). -/
@[simp] theorem operandsFit_toNat_cons {n : Nat} (x : BitVec n) (ws ns : List Nat) :
    operandsFit (n :: ws) (x.toNat :: ns) = operandsFit ws ns := by
  simp [operandsFit, x.isLt]

@[simp] theorem operandsFit_nil_nil : operandsFit [] [] = true := rfl

theorem wellFormed_iff (l : Line) :
    l.wellFormed = true ↔ l.operands.length = l.head.operandWidths.length ∧
      ∀ p ∈ l.operands.zip l.head.operandWidths, p.1 < 2 ^ p.2 :=
  operandsFit_iff _ _

theorem assemble_of_wellFormed {l : Line} (h : l.wellFormed = true) :
    assemble l = buildInstr (expandLine l).1 (expandLine l).2 :=
  if_pos h

theorem assemble_of_not_wellFormed {l : Line} (h : ¬ l.wellFormed = true) : assemble l = none :=
  if_neg h

/-! ### Lines that assemble -/

/-- The right number of operands makes a command. -/
theorem buildInstr_of_length {m : Mnemonic} {ns : List Nat} (h : ns.length = m.format.operandWidths.length) :
    ∃ i, buildInstr m ns = some i := by
  cases m with
  | getdt | getyear | getmonth | getday | gethour | getmin | getsec | getwday | getyday | getws | gethalt =>
    match ns, h with
    | [], _ => exact ⟨_, rfl⟩
  | setws | d2b | b2d | isleap | sethalt | ctlupk =>
    match ns, h with
    | [_], _ => exact ⟨_, rfl⟩
  | wdenc | wddec | sqw | ctlpk =>
    match ns, h with
    | [_, _], _ => exact ⟨_, rfl⟩
  | doy =>
    match ns, h with
    | [_, _, _], _ => exact ⟨_, rfl⟩
  | setdt =>
    match ns, h with
    | [_, _, _, _, _, _, _, _], _ => exact ⟨_, rfl⟩

/-- R102: an expansion has its mnemonic's number of operands when the line has its head's. -/
theorem expandLine_length {l : Line} (h : l.operands.length = l.head.operandWidths.length) :
    (expandLine l).2.length = (expandLine l).1.format.operandWidths.length := by
  obtain ⟨head, ns⟩ := l
  cases head with
  | command m => exact h
  | halt | run => rfl
  | sqwoff => exact congrArg (· + 1) h
  | setdt7 => exact List.length_append.trans (congrArg (· + 1) h)

/-- R82: the operands of a command fit, since it holds them at their fields' widths. -/
theorem wellFormed_line (i : Instr) : i.line.wellFormed = true := by
  cases i <;>
    simp [Line.wellFormed, Instr.line, Instr.mnemonic, Head.operandWidths, Mnemonic.format, Format.operandWidths]

theorem buildInstr_line (i : Instr) : buildInstr i.mnemonic i.line.operands = some i := by
  cases i <;> simp [Instr.line, Instr.mnemonic, buildInstr]

/-- Settles O9: the second and the third part are the two sides of the check `Line.wellFormed`. -/
theorem writtenCommandsAssemble : Obligations.WrittenCommandsAssemble := by
  refine ⟨fun i => ⟨wellFormed_line i, ?_⟩, fun l hlen hfit => ?_, fun l h => ?_⟩
  · exact (assemble_of_wellFormed (wellFormed_line i)).trans (buildInstr_line i)
  · rw [assemble_of_wellFormed ((wellFormed_iff l).2 ⟨hlen, hfit⟩)]
    exact buildInstr_of_length (expandLine_length hlen)
  · refine assemble_of_not_wellFormed fun hwf => ?_
    obtain ⟨hlen, hfit⟩ := (wellFormed_iff l).1 hwf
    rcases h with hne | ⟨p, hp, hge⟩
    · exact hne hlen
    · exact absurd (hfit p hp) (Nat.not_lt.2 hge)

/-- Settles O8: each line is well formed and builds its expansion. -/
theorem pseudoInstructionsExpand : Obligations.PseudoInstructionsExpand := by
  refine ⟨rfl, rfl, fun level => ?_, fun y mo d h mi s wd => ?_⟩
  · rw [assemble_of_wellFormed (by simp [Line.wellFormed, Head.operandWidths])]
    simp [expandLine, buildInstr]
  · rw [assemble_of_wellFormed (by simp [Line.wellFormed, Head.operandWidths])]
    simp [expandLine, buildInstr]

end Sys2Proof.Machine
end

section
/-! PROOFS. Datetime transfers (spec/40_datetime.md R111 to R122): what a datetime read answers, what `SETDT` writes, and
that the one reads back what the other wrote. -/

namespace Sys2Proof.Machine

variable {s : State} {r : TimeRegs} {e : Byte}

/-! ### One transaction -/

theorem readDateTime_success (answer : DateTime → Response) (h : busAnswerAt s 0 = .success r) :
    readDateTime answer s =
      { afterOne s (readOk s r) (encodeResponse (answer (decodeDateTime (s.draws + 1) s.ws r))) (s.draws + 2) with
        halt := r.seconds.getLsbD 7 } := by
  rcases readDateTime_cases answer s with ⟨r', h', hm⟩ | ⟨e', h', -⟩ | ⟨h', -⟩ <;> cases h.symm.trans h'
  exact hm

theorem readDateTime_failure (answer : DateTime → Response) (h : busAnswerAt s 0 = .failure e) :
    readDateTime answer s = afterOne s (readFailed s e) (errorWord 0x02 e) (s.draws + 1) := by
  rcases readDateTime_cases answer s with ⟨r', h', -⟩ | ⟨e', h', hm⟩ | ⟨h', -⟩ <;> cases h.symm.trans h'
  exact hm

/-- R111, R114: the commands of `datetimeReads` differ in what they choose from the datetime only. -/
theorem exec_of_mem_datetimeReads {i : Instr} (hi : i ∈ datetimeReads) (s : State) :
    ∃ answer, exec i s = .next (readDateTime answer s) := by
  simp only [datetimeReads, List.mem_cons, List.not_mem_nil, or_false] at hi
  rcases hi with rfl | rfl | rfl | rfl | rfl | rfl | rfl | rfl | rfl <;> exact ⟨_, rfl⟩

theorem readsAndAnswers_of_exec {i : Instr} {answer : DateTime → Response}
    (hi : exec i s = .next (readDateTime answer s)) (h : busAnswerAt s 0 = .success r) :
    ReadsAndAnswers i s r (encodeResponse (answer (decodeDateTime (s.draws + 1) s.ws r))) :=
  ⟨s.draws + 2, by rw [hi, readDateTime_success answer h]⟩

/-- R254, R264: a failed read, whichever of the nine commands issued it. -/
theorem datetimeRead_failure {i : Instr} (hi : i ∈ datetimeReads) (h : busAnswerAt s 0 = .failure e) :
    ∃ n, exec i s = .next (afterOne s (readFailed s e) (errorWord 0x02 e) n) := by
  obtain ⟨answer, ha⟩ := exec_of_mem_datetimeReads hi s
  exact ⟨s.draws + 1, by rw [ha, readDateTime_failure answer h]⟩

/-- A command of one write that succeeds. -/
theorem write_success (off : Byte) (buf : List Byte) (n : Nat) (h : busAnswerAt s 0 = .success r) :
    spendDraws n (afterBus (memWrite off buf s) fun _ s1 => respond .empty s1) =
      afterOne s ⟨.write, s.addr, off, .ofNat 8 buf.length, buf, .ok⟩ okEmpty (s.draws + 1 + n) := by
  rw [memWrite_success h, afterBus_done, respond, encodeResponse_empty]
  rfl

/-- A command of one write that fails. -/
theorem write_failure (off : Byte) (buf : List Byte) (n : Nat) (h : busAnswerAt s 0 = .failure e) :
    spendDraws n (afterBus (memWrite off buf s) fun _ s1 => respond .empty s1) =
      afterOne s ⟨.write, s.addr, off, .ofNat 8 buf.length, buf, .failed e⟩ (errorWord 0x02 e) (s.draws + 1 + n) := by
  rw [memWrite_failure h, afterBus_failed]
  rfl

/-! ### The decoded fields -/

/-- R111, R182: the yearday of a decoded datetime. -/
theorem yearday_toNat (k : Nat) (h : 1 ≤ bcdValue r.month) (h' : bcdValue r.month ≤ 12) :
    (doy k (yearField r.year) (decField r.month) (decField r.day)).toNat =
      dayNumber (bcdValue r.year + 2000) (bcdValue r.month) (bcdValue r.day) := by
  rw [← decField_toNat r.month] at h h'
  rw [doy_toNat k h h', yearField_toNat, decField_toNat, decField_toNat]

/-- R161: a field of one decoded byte is the whole number. -/
theorem toNat_of_eq_decField {x b : Byte} (h : x = decField b) : x.toNat = bcdValue b ∧ x.toNat ≤ 165 := by
  rw [h, decField_toNat]
  exact ⟨rfl, bcdValue_le b⟩

/-- R111: a weekday of 0 to 6 fits its field. -/
theorem ofNat_wdDec_toNat (b : Byte) (ws : Nat) : (BitVec.ofNat 8 (wdDec b ws)).toNat = wdDec b ws := by
  obtain ⟨hle, -⟩ := wdDec_isMod7 b ws
  rw [BitVec.toNat_ofNat, Nat.mod_eq_of_lt (by omega)]

/-- R111: a byte without bit 7 decodes to at most 85. -/
theorem bcdValue_low7_le (b : Byte) : bcdValue (b &&& 0x7F) ≤ 85 := by
  rw [bcdValue, low7_toNat]; omega

/-- R111: the yearday of a day that a register byte may hold. -/
theorem dayNumber_le {y m d : Nat} (h : d ≤ 165) : dayNumber y m d ≤ 500 := by
  have := daysBefore_le m
  unfold dayNumber; split <;> omega

/-! ### The datetime reads -/

/-- Settles O24: the read with its answer written out field by field. -/
theorem getdtReadsAndDecodes : Obligations.GetdtReadsAndDecodes := by
  refine ⟨by decide, fun s => ⟨fun r h => ?_, fun e h => datetimeRead_failure (by decide) h⟩⟩
  have hread : ReadsAndAnswers .getdt s r _ := readsAndAnswers_of_exec rfl h
  rw [decodeDateTime_eq] at hread
  exact ⟨wdDec r.weekday s.ws.toNat, _, wdDec_isMod7 _ _, yearday_toNat (s.draws + 1), hread⟩

/-- Settles O25: the word's fields are those of the decoded datetime, whose numbers are whole. -/
theorem getdtResultRanges : Obligations.GetdtResultRanges := by
  intro s t r w hb ht hw
  obtain ⟨n, hn⟩ : ReadsAndAnswers .getdt s r _ := readsAndAnswers_of_exec rfl hb
  cases hn.symm.trans ht
  cases List.append_cancel_left hw
  obtain ⟨-, -, -, hlayout, -⟩ := okResponseLayout
  obtain ⟨-, hyear, hmonth, hday, hhour, hminute, hsecond, hweekday, hyearday, -⟩ :=
    hlayout (decodeDateTime (s.draws + 1) s.ws r)
  intro year month day hour minute second weekday yearday
  have hyear' : year = bcdValue r.year + 2000 := (congrArg BitVec.toNat hyear).trans (yearField_toNat r.year)
  have hyear_le := bcdValue_le r.year
  obtain ⟨hmonth', hmonth_le⟩ := toNat_of_eq_decField hmonth
  obtain ⟨hday', hday_le⟩ := toNat_of_eq_decField hday
  obtain ⟨hsecond', -⟩ := toNat_of_eq_decField hsecond
  have hmod : IsMod7 ((bcdValue r.weekday : Int) - s.ws.toNat) weekday := by
    rw [show weekday = _ from (congrArg BitVec.toNat hweekday).trans (ofNat_wdDec_toNat r.weekday s.ws.toNat)]
    exact wdDec_isMod7 r.weekday s.ws.toNat
  refine ⟨⟨hyear', by omega, by omega⟩, ⟨hmonth', hmonth_le⟩, ⟨hday', hday_le⟩, toNat_of_eq_decField hhour,
    toNat_of_eq_decField hminute, ⟨hsecond', hsecond'.trans_le (bcdValue_low7_le r.seconds)⟩, ⟨hmod, hmod.1⟩,
    fun h h' => ?_⟩
  have hnumber : yearday = dayNumber (bcdValue r.year + 2000) (bcdValue r.month) (bcdValue r.day) :=
    (congrArg BitVec.toNat hyearday).trans (yearday_toNat _ (hmonth' ▸ h) (hmonth' ▸ h'))
  rw [← hyear', ← hmonth', ← hday'] at hnumber
  exact ⟨hnumber, hnumber.trans_le (dayNumber_le hday_le)⟩

/-- Settles O26: one read, and one field of the datetime of `decodeDateTime_eq` for each command. -/
theorem projectionsReadAllAndAnswerOneField : Obligations.ProjectionsReadAllAndAnswerOneField := by
  refine ⟨by decide, by decide, by decide, by decide, by decide, by decide, by decide, by decide, fun s =>
    ⟨fun r h => ?_, fun e h i hi => datetimeRead_failure hi h⟩⟩
  have hread (i : Instr) (answer : DateTime → Response) (hi : exec i s = .next (readDateTime answer s)) :=
    readsAndAnswers_of_exec hi h
  simp only [decodeDateTime_eq] at hread
  exact ⟨hread .getyear (.half ·.year) rfl, hread .getmonth (.byte ·.month) rfl, hread .getday (.byte ·.day) rfl,
    hread .gethour (.byte ·.hour) rfl, hread .getmin (.byte ·.minute) rfl, hread .getsec (.byte ·.second) rfl,
    ⟨_, wdDec_isMod7 _ _, hread .getwday (.byte ·.weekday) rfl⟩,
    ⟨_, yearday_toNat _, hread .getyday (.half ·.yearday) rfl⟩⟩

/-! ### `SETDT` -/

/-- The format DT of R81, with the opcode set before the operands or written in one row with them. -/
theorem encode_setdt (year : Half) (month day hour minute second weekday : Byte) (yearday : Half) :
    encode (.setdt year month day hour minute second weekday yearday) =
      0x11#8 ++ year ++ month ++ day ++ hour ++ minute ++ second ++ weekday ++ yearday ++ 0x00#8 := by
  obtain ⟨hop, hy, hmo, hd, hh, hmi, hs, hwd, hyd, hzero⟩ :=
    cut_dateTime 0x11#8 year month day hour minute second weekday yearday
  refine encode_of_decode ((decode_ok_iff _ _).2
    ⟨.setdt, congrArg mnemonicOf hop, (reservedClear_iff .DT _).2 hzero, ?_⟩)
  rw [instrOf, fieldYear, fieldMonth, fieldDay, fieldHour, fieldMinute, fieldSecond, fieldWeekday, fieldYearday,
    hy, hmo, hd, hh, hmi, hs, hwd, hyd]

/-- Settles O27: the buffer is `encodeDateTime`, its free bytes the draws from `s.draws` on. -/
theorem setdtEncodesAndWrites : Obligations.SetdtEncodesAndWrites := by
  intro s year month day hour minute second weekday
  refine ⟨d2b s.draws second.toNat, d2b (s.draws + 1) minute.toNat, d2b (s.draws + 2) hour.toNat,
    wdEnc (s.draws + 3) weekday.toNat s.ws.toNat, d2b (s.draws + 4) day.toNat, d2b (s.draws + 5) month.toNat,
    yearCode (s.draws + 6) year, d2b_of_le _, d2b_of_le _, d2b_of_le _, wdEnc_of_le _, d2b_of_le _, d2b_of_le _,
    yearCode_of_range _, fun yearday => ⟨encode_setdt .., fun r h => ?_, fun e h => ?_⟩⟩
  all_goals rw [← haltPack_eq]
  · exact ⟨_, congrArg Host.Outcome.next (write_success 0 _ encodeDraws h)⟩
  · exact ⟨_, congrArg Host.Outcome.next (write_failure 0 _ encodeDraws h)⟩

/-! ### The round trip -/

theorem decField_d2b {v : Byte} (k : Nat) (h : v.toNat ≤ 99) : decField (d2b k v.toNat) = v := by
  rw [decField_eq, d2b_of_le k h, bcdValue_bcdCode h, BitVec.ofNat_toNat, BitVec.setWidth_eq]

theorem yearField_yearCode {y : Half} (k : Nat) (h : 2000 ≤ y.toNat) (h' : y.toNat ≤ 2099) :
    yearField (yearCode k y) = y := by
  rw [yearField_eq, yearCode_of_range k h h', bcdValue_bcdCode (by omega), Nat.sub_add_cancel h, BitVec.ofNat_toNat,
    BitVec.setWidth_eq]

/-- R202: the mask takes out again what the packer put into bit 7 of a byte below 128. -/
theorem secField_haltPack {b : Byte} (flag : Bool) (h : b.toNat < 128) : secField (haltPack b flag) = b := by
  have hlow : b &&& 0x7F#8 = b := BitVec.eq_of_toNat_eq ((low7_toNat b).trans (Nat.mod_eq_of_lt h))
  cases flag <;> simp [secField, haltPack_eq, BitVec.and_or_distrib_right, hlow]

/-- R113, of the seconds byte. -/
theorem decField_secField_haltPack {v : Byte} (k : Nat) (flag : Bool) (h : v.toNat ≤ 79) :
    decField (secField (haltPack (d2b k v.toNat) flag)) = v := by
  have hlt : (d2b k v.toNat).toNat < 128 := by
    rw [d2b_of_le k (by omega), bcdCode_toNat (by omega)]; omega
  rw [secField_haltPack flag hlt, decField_d2b k (by omega)]

/-- R113, of the flag: a second up to 79 leaves bit 7 to it. -/
theorem haltPack_d2b_bit7 {v : Nat} (k : Nat) (flag : Bool) (h : v ≤ 79) :
    (haltPack (d2b k v) flag).getLsbD 7 = flag := by
  rw [haltPack_bit7, d2b_bit7 k (by omega), decide_eq_false (by omega), Bool.or_false]

/-- R146: decoding an encoded weekday shifts it by the difference of the offsets. -/
theorem wdDec_wdEnc_isMod7 {wd ws : Nat} (k ws' : Nat) (h : wd + ws ≤ 99) :
    IsMod7 ((wd : Int) + ws - ws') (wdDec (wdEnc k wd ws) ws') := by
  have := wdDec_isMod7 (wdEnc k wd ws) ws'
  rwa [wdEnc_of_le k h, bcdValue_bcdCode h, Nat.cast_add, ← wdEnc_of_le k h] at this

theorem isMod7_of_le {n : Nat} (h : n ≤ 6) : IsMod7 n n := ⟨h, 0, by omega⟩

/-- R113: the decoder undoes the encoder, the weekday up to the two offsets. -/
theorem decodeDateTime_encodeDateTime (k k' : Nat) (ws ws' : BitVec 3) (halt : Bool) {year : Half}
    {month day hour minute second : Byte} (weekday : Byte) (hy : 2000 ≤ year.toNat) (hy' : year.toNat ≤ 2099)
    (hmo : month.toNat ≤ 99) (hd : day.toNat ≤ 99) (hh : hour.toNat ≤ 99) (hmi : minute.toNat ≤ 99)
    (hs : second.toNat ≤ 79) :
    decodeDateTime k' ws' (encodeDateTime k ws halt year month day hour minute second weekday) =
      { year := year, month := month, day := day, hour := hour, minute := minute, second := second
        weekday := .ofNat 8 (wdDec (wdEnc (k + 3) weekday.toNat ws.toNat) ws'.toNat)
        yearday := doy k' year month day } := by
  simp only [decodeDateTime, encodeDateTime, yearField_yearCode _ hy hy', decField_d2b _ hmo, decField_d2b _ hd,
    decField_d2b _ hh, decField_d2b _ hmi, decField_secField_haltPack _ _ hs]

/-- Settles O28: the read of the bytes of `encodeDateTime` answers what `decodeDateTime` makes of them. -/
theorem datetimeRoundTrip : Obligations.DatetimeRoundTrip := by
  intro s s' year month day hour minute second weekday yearday r hy hy' hmo hd hh hmi hs hwd hws hws' hb
  refine ⟨encodeDateTime s.draws s.ws s.halt year month day hour minute second weekday,
    ⟨_, congrArg Host.Outcome.next (write_success 0 _ encodeDraws hb)⟩, fun hb' => ?_⟩
  have hmod := wdDec_wdEnc_isMod7 (s.draws + 3) s'.ws.toNat (show weekday.toNat + s.ws.toNat ≤ 99 by omega)
  obtain ⟨n, hread⟩ : ReadsAndAnswers .getdt s' _ _ := readsAndAnswers_of_exec rfl hb'
  rw [decodeDateTime_encodeDateTime _ _ _ _ _ weekday hy hy' hmo hd hh hmi hs] at hread
  have hhalt : (encodeDateTime s.draws s.ws s.halt year month day hour minute second weekday).seconds.getLsbD 7 =
      s.halt := haltPack_d2b_bit7 s.draws s.halt hs
  refine ⟨_, doy (s'.draws + 1) year month day, n, hmod, fun hsame => ?_, ?_⟩
  · rw [hsame, add_sub_cancel_right] at hmod
    rw [hsame]
    exact hmod.eq (isMod7_of_le hwd)
  · rw [hhalt] at hread
    exact hread

end Sys2Proof.Machine
end

section
/-! PROOFS. The weekday commands again (spec/41_weekday.md): the offset register, `WDENC`, and the round trip of `WDENC`
and `WDDEC`. -/

namespace Sys2Proof.Machine

variable {s : State}

/-- The format B of R81, with the opcode set before the operand byte or written in one row with it. -/
theorem append_oneByte (op a : Byte) : (op ++ (a ++ 0#80) : Word) = op ++ a ++ 0#80 :=
  (BitVec.append_assoc (x₁ := op) (x₂ := a) (x₃ := 0#80)).symm

/-- R15: setting draws aside for a free value is no part of an answer. -/
theorem answers_of_respond_byte_spendDraws {i : Instr} {v : Byte} {n : Nat}
    (h : exec i s = .next (respond (.byte v) (spendDraws n s))) : Answers i s (okByte v) :=
  ⟨s.draws + n, h⟩

/-! ### The offset register -/

/-- Settles O30: the three bits of `WS` widened to a byte. -/
theorem getwsAnswersTheOffset : Obligations.GetwsAnswersTheOffset := by
  refine ⟨by decide, fun s => ?_⟩
  rw [BitVec.ofNat_toNat]
  exact answers_of_respond_byte rfl

theorem exec_setws_of_le {a : Byte} (h : a.toNat ≤ 6) :
    exec (.setws a) s = .next { s with ws := .ofNat 3 a.toNat, responses := s.responses ++ [okEmpty] } := by
  have ha : a ≤ 6 := h
  have hexec : exec (.setws a) s = .next (respond .empty (setWs (a.setWidth 3) s)) :=
    congrArg Host.Outcome.next (if_pos ha)
  rw [hexec, respond, encodeResponse_empty, BitVec.ofNat_toNat]
  rfl

theorem exec_setws_of_gt {a : Byte} (h : 7 ≤ a.toNat) :
    exec (.setws a) s = .next { s with responses := s.responses ++ [errorWord 0x01 0x01] } := by
  have ha : ¬ a ≤ 6 := Nat.not_le.2 h
  exact congrArg Host.Outcome.next (if_neg ha)

/-- Settles O31: the two sides of the check that `SETWS` makes of its operand. -/
theorem setwsStoresOrRejects : Obligations.SetwsStoresOrRejects := fun _ a =>
  ⟨append_oneByte 0x21#8 a, exec_setws_of_le, exec_setws_of_gt⟩

/-! ### The adder and the round trip -/

theorem wdenc_answers (a b : Byte) (s : State) :
    Answers (.wdenc a b) s (okByte (wdEnc s.draws a.toNat b.toNat)) :=
  answers_of_respond_byte_spendDraws rfl

/-- Settles O32: the byte is `wdEnc` of the operands, which up to 99 is the code of their sum. -/
theorem wdencAddsAndEncodes : Obligations.WdencAddsAndEncodes := fun s a b =>
  ⟨append_twoBytes 0x22#8 a b, fun h => wdEnc_of_le s.draws h ▸ wdenc_answers a b s, _, wdenc_answers a b s⟩

/-- Settles O34: what `WDDEC` makes of the byte of `WDENC` is `wdDec_wdEnc_isMod7`; equal offsets cancel. -/
theorem weekdayRoundTrip : Obligations.WeekdayRoundTrip := by
  intro s s' wd ws ws' h
  have hmod := wdDec_wdEnc_isMod7 s.draws ws'.toNat h
  refine ⟨_, _, wdenc_answers wd ws s, hmod, wddec_answers _ ws' s', fun hsame => ?_⟩
  subst hsame
  rw [add_sub_cancel_right] at hmod
  exact ⟨hmod, fun hwd => hmod.eq (isMod7_of_le hwd)⟩

end Sys2Proof.Machine
end

section
/-! PROOFS. The BCD codec (spec/42_bcd_codec.md): the laws of R164 for the encoder and the decoder, and the commands
`D2B` and `B2D` that apply them. -/

namespace Sys2Proof.Machine

/-! ### The laws of the pair -/

/-- R164 (a). -/
theorem b2d_d2b {v : Nat} (k : Nat) (h : v ≤ 99) : b2d (d2b k v) = v := by
  rw [d2b_of_le k h, b2d_eq, bcdValue_bcdCode h]

theorem d2b_toNat {v : Nat} (k : Nat) (h : v ≤ 99) : (d2b k v).toNat = v + 6 * (v / 10) := by
  rw [d2b_of_le k h, bcdCode_toNat h]

/-- A byte with decimal nibbles, `16 * hi + lo`, has the value `10 * hi + lo`. -/
theorem b2d_le_of_nibbles {b : Byte} (hhi : (b.extractLsb' 4 4).toNat ≤ 9) (hlo : (b.extractLsb' 0 4).toNat ≤ 9) :
    b2d b ≤ 99 := by
  have := b.isLt
  rw [extract_toNat] at hhi hlo
  rw [b2d_eq, bcdValue]; omega

/-- R164 (b), from bytes to values and back. -/
theorem d2b_b2d {b : Byte} (k : Nat) (hhi : (b.extractLsb' 4 4).toNat ≤ 9) (hlo : (b.extractLsb' 0 4).toNat ≤ 9) :
    d2b k (b2d b) = b := by
  apply BitVec.eq_of_toNat_eq
  rw [d2b_toNat k (b2d_le_of_nibbles hhi hlo), b2d_eq, bcdValue]
  have := b.isLt
  rw [extract_toNat] at hhi hlo
  omega

/-- Of the sixteen bytes with the high nibble `hi`, ten have decimal nibbles if `hi` is up to 9, and none otherwise. -/
theorem countP_decimalNibbles_row (hi : Nat) :
    ((List.range 16).map (16 * hi + ·)).countP (fun n => n / 16 ≤ 9 ∧ n % 16 ≤ 9) = if hi ≤ 9 then 10 else 0 := by
  have hdiv (lo : Nat) (h : lo < 16) : (16 * hi + lo) / 16 = hi := by omega
  have hmod (lo : Nat) (h : lo < 16) : (16 * hi + lo) % 16 = lo := by omega
  rw [List.countP_map, List.countP_congr (q := fun lo => hi ≤ 9 ∧ lo ≤ 9) fun lo h => by
    simp [hdiv lo (List.mem_range.1 h), hmod lo (List.mem_range.1 h)]]
  by_cases h : hi ≤ 9
  · simp only [h, true_and, if_true]; decide
  · simp [h]

/-- R164 (b): how many bytes below `16 * rows` have decimal nibbles. -/
theorem countP_decimalNibbles (rows : Nat) :
    (List.range (16 * rows)).countP (fun n => n / 16 ≤ 9 ∧ n % 16 ≤ 9) = 10 * min rows 10 := by
  induction rows with
  | zero => rfl
  | succ hi ih =>
    rw [Nat.mul_succ, List.range_add, List.countP_append, ih, countP_decimalNibbles_row]
    split <;> omega

/-- R164 (c), whatever the two draws. -/
theorem d2b_strictMono {u v : Nat} (j k : Nat) (huv : u < v) (h : v ≤ 99) : (d2b j u).toNat < (d2b k v).toNat := by
  rw [d2b_toNat j (by omega), d2b_toNat k h]; omega

/-- R164 (c): the largest code is that of 99. -/
theorem d2b_le {v : Nat} (k : Nat) (h : v ≤ 99) : (d2b k v).toNat ≤ 0x99 := by
  rw [d2b_toNat k h]; omega

/-- R164 (d): bit 7 is clear exactly up to 79. -/
theorem d2b_bit7_clear_iff {v : Nat} (k : Nat) (h : v ≤ 99) : (d2b k v).getLsbD 7 = false ↔ v ≤ 79 := by
  rw [d2b_bit7 k h, decide_eq_false_iff_not]; omega

/-- R164 (d), of the values from 80 on. -/
theorem le_d2b_of_ge {v : Nat} (k : Nat) (h : v ≤ 99) (h80 : 80 ≤ v) : 0x80 ≤ (d2b k v).toNat := by
  rw [d2b_toNat k h]; omega

/-- R164 (f). -/
theorem b2d_low7_le (b : Byte) : b2d (b &&& 0x7F) ≤ 85 :=
  (b2d_eq _).trans_le (bcdValue_low7_le b)

/-- R164 (g), of the encoder. -/
theorem d2b_digit {v : Nat} (k : Nat) (h : v ≤ 9) : (d2b k v).toNat = v := by
  rw [d2b_toNat k (by omega)]; omega

/-- R164 (g), of the decoder. -/
theorem b2d_digit {b : Byte} (h : b.toNat ≤ 9) : b2d b = b.toNat := by
  rw [b2d_eq, bcdValue]; omega

/-- Settles O37: the laws (a) to (g), one lemma each; (e) is the pair 0x0A and 0x10 of equal value. -/
theorem bcdLaws : Obligations.BcdLaws :=
  ⟨fun k _ => b2d_d2b k,
    fun k _ hhi hlo => ⟨d2b_b2d k hhi hlo, _, b2d_le_of_nibbles hhi hlo, d2b_b2d k hhi hlo⟩,
    countP_decimalNibbles 16,
    fun j k _ _ huv h => ⟨d2b_strictMono j k huv h, d2b_le k h⟩,
    fun k _ h => ⟨d2b_bit7_clear_iff k h, fun h80 => ⟨le_d2b_of_ge k h h80, d2b_le k h⟩⟩,
    ⟨rfl, rfl, fun _ => rfl⟩,
    b2d_low7_le,
    fun k _ => d2b_digit k, fun _ => b2d_digit⟩

/-! ### The commands -/

theorem d2b_answers (a : Byte) (s : State) : Answers (.d2b a) s (okByte (d2b s.draws a.toNat)) :=
  answers_of_respond_byte_spendDraws rfl

theorem b2d_answers (a : Byte) (s : State) : Answers (.b2d a) s (okByte (decField a)) :=
  answers_of_respond_byte rfl

/-- Settles O35: the byte is `d2b` of the operand, which up to 99 is its code. -/
theorem d2bAnswersTheCode : Obligations.D2bAnswersTheCode := fun s a =>
  ⟨append_oneByte 0x30#8 a, fun h => d2b_of_le s.draws h ▸ d2b_answers a s, _, d2b_answers a s⟩

/-- Settles O36: the byte is the decoded operand, which fits it. -/
theorem b2dAnswersTheValue : Obligations.B2dAnswersTheValue := fun s a =>
  ⟨append_oneByte 0x31#8 a, bcdValue_le a, decField_eq a ▸ b2d_answers a s⟩

end Sys2Proof.Machine
end

section
/-! PROOFS. The calendar (spec/43_calendar.md): the values of the yearday over the dates of a year, and the commands
`ISLEAP` and `DOY`. -/

namespace Sys2Proof.Machine

variable {y m n : Nat}

/-! ### The day number of R182 in its two closed forms -/

/-- R185 (a). -/
theorem dayNumber_of_noLeapDay (d : Nat) (h : y % 4 ≠ 0 ∨ m = 1) : dayNumber y m d = daysBefore m + d :=
  congrArg (daysBefore m + d + ·) (if_neg (by omega))

/-- R185 (b). -/
theorem dayNumber_of_leapDay (d : Nat) (hm : 2 ≤ m) (hy : y % 4 = 0) : dayNumber y m d = daysBefore m + d + 1 :=
  congrArg (daysBefore m + d + ·) (if_pos ⟨hm, hy⟩)

/-- R182: the largest specified result is that of day 255 of a leap December. -/
theorem dayNumber_byte_le (y m : Nat) (d : Byte) : dayNumber y m d.toNat ≤ 590 := by
  have := daysBefore_le m
  have := d.isLt
  unfold dayNumber; split <;> omega

/-! ### The months of a year (R181) -/

theorem monthLength_le (y m : Nat) : monthLength y m ≤ 31 := by
  unfold monthLength; split_ifs <;> decide

/-- The third row of the table is the running sum of the second, except over a leap February. -/
theorem daysBefore_succ (h : 1 ≤ m) (h' : m < 12) (hy : y % 4 ≠ 0 ∨ 3 ≤ m) :
    daysBefore (m + 1) = daysBefore m + monthLength y m := by
  by_cases hm : m = 2
  · simp [hm, monthLength, daysBefore, show y % 4 ≠ 0 by omega]
  · rw [monthLength, if_neg hm]
    interval_cases m <;> simp [daysBefore] at hm ⊢

/-- A month of a common year ends before any later one begins. -/
theorem month_ends_before {m' : Nat} (hy : y % 4 ≠ 0) (h : 1 ≤ m) (hlt : m < m') (h' : m' ≤ 12) :
    daysBefore m + monthLength y m ≤ daysBefore m' := by
  induction m', hlt using Nat.le_induction with
  | base => exact (daysBefore_succ h h' (.inl hy)).ge
  | succ k hk ih =>
    have hnext : daysBefore (k + 1) = daysBefore k + monthLength y k := daysBefore_succ (by omega) h' (.inl hy)
    have := ih (by omega)
    omega

theorem daysBefore_ge (h : 2 ≤ m) (h' : m ≤ 12) : 31 ≤ daysBefore m :=
  month_ends_before (y := 1) (m := 1) (by decide) le_rfl h h'

/-! ### The dates of a year -/

theorem doy_of_validDate {y : Half} {m d : Byte} (k : Nat) (h : ValidDate y.toNat m.toNat d.toNat) :
    (doy k y m d).toNat = dayNumber y.toNat m.toNat d.toNat :=
  let ⟨hm, hm', _⟩ := h
  doy_toNat k hm hm'

/-- A day after the first `daysBefore a` ones lies in the last month that begins before it, if no month from `a` on has
a leap day. -/
theorem exists_month {a : Nat} (ha : 1 ≤ a) (ha' : a ≤ 12) (hy : y % 4 ≠ 0 ∨ 3 ≤ a) (hlo : daysBefore a < n)
    (hhi : n ≤ 365) : ∃ m, a ≤ m ∧ m ≤ 12 ∧ daysBefore m < n ∧ n ≤ daysBefore m + monthLength y m := by
  let m := Nat.findGreatest (daysBefore · < n) 12
  have ham : a ≤ m := Nat.le_findGreatest ha' hlo
  have hm : m ≤ 12 := Nat.findGreatest_le 12
  refine ⟨m, ham, hm, Nat.findGreatest_spec (P := (daysBefore · < n)) ha' hlo, ?_⟩
  rcases hm.lt_or_eq with hlt | heq
  · have hnext : ¬ daysBefore (m + 1) < n := Nat.findGreatest_is_greatest (P := (daysBefore · < n)) (Nat.lt_succ_self m) hlt
    rw [daysBefore_succ (y := y) (ha.trans ham) hlt (by omega)] at hnext
    exact Nat.not_lt.1 hnext
  · rw [heq]; exact hhi

/-- The month of `exists_month` with the day in it, as operand bytes. -/
theorem exists_validDate {a : Nat} (ha : 1 ≤ a) (ha' : a ≤ 12) (hy : y % 4 ≠ 0 ∨ 3 ≤ a) (hlo : daysBefore a < n)
    (hhi : n ≤ 365) :
    ∃ m d : Byte, a ≤ m.toNat ∧ ValidDate y m.toNat d.toNat ∧ daysBefore m.toNat + d.toNat = n := by
  obtain ⟨m, ham, hm, hbegin, hend⟩ := exists_month ha ha' hy hlo hhi
  have := monthLength_le y m
  refine ⟨.ofNatLT m (by omega), .ofNatLT (n - daysBefore m) (by omega), ?_⟩
  simp only [BitVec.toNat_ofNatLT]
  refine ⟨ham, ⟨?_, ?_, ?_, ?_⟩, ?_⟩ <;> omega

/-- R185 (d): in a common year no two dates have the same number. -/
theorem validDate_unique {d m' d' : Nat} (hy : y % 4 ≠ 0) (h : ValidDate y m d) (h' : ValidDate y m' d')
    (heq : daysBefore m + d = daysBefore m' + d') : m = m' ∧ d = d' := by
  obtain ⟨hm, hm12, hd, hdl⟩ := h
  obtain ⟨hm', hm12', hd', hdl'⟩ := h'
  rcases Nat.lt_trichotomy m m' with hlt | rfl | hgt
  · have := month_ends_before hy hm hlt hm12'
    omega
  · exact ⟨rfl, Nat.add_left_cancel heq⟩
  · have := month_ends_before hy hm' hgt hm12
    omega

/-! ### The laws of R185 -/

section
variable {y : Half} {m d : Byte}

/-- R185 (a), of the unit. -/
theorem doy_of_noLeapDay (k : Nat) (h : 1 ≤ m.toNat) (h' : m.toNat ≤ 12) (hy : y.toNat % 4 ≠ 0 ∨ m.toNat = 1) :
    (doy k y m d).toNat = daysBefore m.toNat + d.toNat :=
  (doy_toNat k h h').trans (dayNumber_of_noLeapDay _ hy)

/-- R185 (b), of the unit. -/
theorem doy_of_leapDay (k : Nat) (h : 2 ≤ m.toNat) (h' : m.toNat ≤ 12) (hy : y.toNat % 4 = 0) :
    (doy k y m d).toNat = daysBefore m.toNat + d.toNat + 1 :=
  (doy_toNat k (by omega) h').trans (dayNumber_of_leapDay _ h hy)

/-- R185 (c): January ends with 31, and February of a leap year begins with 33. -/
theorem doy_ne_32 (k : Nat) (hy : y.toNat % 4 = 0) (h : ValidDate y.toNat m.toNat d.toNat) : doy k y m d ≠ 32 := by
  intro h32
  have hvalue : (doy k y m d).toNat = 32 := congrArg BitVec.toNat h32
  obtain ⟨hm, hm', hd, hd'⟩ := h
  by_cases h1 : m.toNat = 1
  · have := monthLength_le y.toNat m.toNat
    rw [doy_of_noLeapDay k hm hm' (.inr h1), h1, daysBefore] at hvalue
    omega
  · have := daysBefore_ge (show 2 ≤ m.toNat by omega) hm'
    rw [doy_of_leapDay k (by omega) hm' hy] at hvalue
    omega

/-- R185 (c): from 1 March of a leap year on there is no gap. -/
theorem exists_doy_of_leap (k : Nat) (hy : y.toNat % 4 = 0) (hlo : 61 ≤ n) (hhi : n ≤ 366) :
    ∃ m d : Byte, 3 ≤ m.toNat ∧ ValidDate y.toNat m.toNat d.toNat ∧ (doy k y m d).toNat = n := by
  have hmarch : daysBefore 3 < n - 1 := by rw [daysBefore]; omega
  obtain ⟨m, d, hm, hdate, hn⟩ :=
    exists_validDate (y := y.toNat) (by decide) (by decide) (.inr le_rfl) hmarch (by omega)
  refine ⟨m, d, hm, hdate, ?_⟩
  rw [doy_of_validDate k hdate, dayNumber_of_leapDay _ (by omega) hy]
  omega

/-- R185 (d): each number of a common year is that of one date. -/
theorem exists_unique_doy_of_common (k : Nat) (hy : y.toNat % 4 ≠ 0) (hlo : 1 ≤ n) (hhi : n ≤ 365) :
    ∃ m d : Byte, (ValidDate y.toNat m.toNat d.toNat ∧ (doy k y m d).toNat = n) ∧
      ∀ m' d' : Byte, ValidDate y.toNat m'.toNat d'.toNat → (doy k y m' d').toNat = n → m' = m ∧ d' = d := by
  have hvalue {m d : Byte} (h : ValidDate y.toNat m.toNat d.toNat) :
      (doy k y m d).toNat = daysBefore m.toNat + d.toNat :=
    (doy_of_validDate k h).trans (dayNumber_of_noLeapDay _ (.inl hy))
  obtain ⟨m, d, -, hdate, hn⟩ := exists_validDate (a := 1) le_rfl (by decide) (.inl hy) hlo hhi
  refine ⟨m, d, ⟨hdate, (hvalue hdate).trans hn⟩, fun m' d' hdate' hn' => ?_⟩
  have heq : daysBefore m'.toNat + d'.toNat = daysBefore m.toNat + d.toNat := by rw [← hvalue hdate', hn', hn]
  obtain ⟨hm, hd⟩ := validDate_unique hy hdate' hdate heq
  exact ⟨BitVec.eq_of_toNat_eq hm, BitVec.eq_of_toNat_eq hd⟩

/-- R185 (e). -/
theorem doy_bounds (k : Nat) (h : ValidDate y.toNat m.toNat d.toNat) :
    1 ≤ (doy k y m d).toNat ∧ (doy k y m d).toNat ≤ 366 ∧ (y.toNat % 4 ≠ 0 → (doy k y m d).toNat ≤ 365) := by
  rw [doy_of_validDate k h]
  obtain ⟨-, -, hd, hd'⟩ := h
  have := daysBefore_le m.toNat
  have := monthLength_le y.toNat m.toNat
  rw [dayNumber]
  split <;> omega

end

/-- Settles O40: the two closed forms, and one lemma for each of the laws (c) to (e); the fixed dates are values of the
closed forms. -/
theorem yeardayOfRealDates : Obligations.YeardayOfRealDates := by
  refine ⟨fun k y m d => doy_of_noLeapDay k, fun k y m d => doy_of_leapDay k, fun k y hy => ?_, fun k y hy => ?_,
    fun k y m d => doy_bounds k, fun k => ?_⟩
  · have hfrom2 (m d : Byte) (hm : 2 ≤ m.toNat) (hm' : m.toNat ≤ 12) :
        (doy k y m d).toNat = daysBefore m.toNat + d.toNat + 1 := doy_of_leapDay k hm hm' hy
    refine ⟨BitVec.eq_of_toNat_eq (doy_of_noLeapDay k (by decide) (by decide) (.inr rfl)),
      BitVec.eq_of_toNat_eq (hfrom2 2 1 (by decide) (by decide)),
      BitVec.eq_of_toNat_eq (hfrom2 2 29 (by decide) (by decide)),
      BitVec.eq_of_toNat_eq (hfrom2 3 1 (by decide) (by decide)),
      BitVec.eq_of_toNat_eq (hfrom2 12 31 (by decide) (by decide)),
      fun m d => doy_ne_32 k hy, fun n => exists_doy_of_leap k hy⟩
  · exact ⟨BitVec.eq_of_toNat_eq (doy_of_noLeapDay k (by decide) (by decide) (.inl hy)),
      fun n => exists_unique_doy_of_common k hy⟩
  · exact ⟨BitVec.eq_of_toNat_eq (doy_of_noLeapDay k (by decide) (by decide) (.inl (by decide))),
      BitVec.eq_of_toNat_eq (doy_of_leapDay k (by decide) (by decide) (by decide))⟩

/-! ### The commands -/

/-- The format Y of R81, with the opcode set before the operand or written in one row with it. -/
theorem append_oneHalf (op : Byte) (y : Half) : (op ++ (y ++ 0#72) : Word) = op ++ y ++ 0#72 :=
  (BitVec.append_assoc (x₁ := op) (x₂ := y) (x₃ := 0#72)).symm

/-- The format YMD of R81, in the same two ways. -/
theorem append_date (op : Byte) (y : Half) (m d : Byte) :
    (op ++ (y ++ m ++ d ++ 0#56) : Word) = op ++ y ++ m ++ d ++ 0#56 := by
  rw [BitVec.append_assoc (x₁ := op ++ y ++ m), BitVec.append_assoc (x₁ := op ++ y), BitVec.append_assoc (x₁ := op),
    BitVec.append_assoc (x₁ := y ++ m), BitVec.append_assoc (x₁ := y)]
  rfl

theorem bitByte_isLeap (y : Half) : bitByte (isLeap y) = if y.toNat % 4 = 0 then 1 else 0 := by
  simp [bitByte, isLeap_eq]

/-- R180: the two low bits are the remainder. -/
theorem leap_iff_low2 (y : Half) : y.toNat % 4 = 0 ↔ y.extractLsb' 0 2 = 0#2 := by
  rw [← BitVec.toNat_inj, extract_toNat, pow_zero, Nat.div_one]
  rfl

/-- R180: 2000 is a multiple of 4. -/
theorem leap_iff_since2000 (y : Nat) : y % 4 = 0 ↔ ((y : Int) - 2000) % 4 = 0 := by omega

theorem isleap_answers (y : Half) (s : State) : Answers (.isleap y) s (okByte (bitByte (isLeap y))) :=
  answers_of_respond_byte rfl

theorem doy_answers (y : Half) (m d : Byte) (s : State) : Answers (.doy y m d) s (okHalf (doy s.draws y m d)) :=
  ⟨s.draws + 1, rfl⟩

/-- Settles O38: the byte is `isLeap` of the year. -/
theorem isleapAnswersTheFormula : Obligations.IsleapAnswersTheFormula := fun s y =>
  ⟨append_oneHalf 0x40#8 y, bitByte_isLeap y ▸ isleap_answers y s, leap_iff_low2 y, leap_iff_since2000 y.toNat⟩

/-- R182: for a month of the table the free value is not used. -/
theorem doy_eq_dayNumber {y : Half} {m d : Byte} (k : Nat) (h : 1 ≤ m.toNat) (h' : m.toNat ≤ 12) :
    doy k y m d = .ofNat 16 (dayNumber y.toNat m.toNat d.toNat) := by
  rw [← doy_toNat k h h', BitVec.ofNat_toNat, BitVec.setWidth_eq]

/-- Settles O39: the value is `doy` of the operands, which in a month of the table is the day number. -/
theorem doyAnswersTheDayNumber : Obligations.DoyAnswersTheDayNumber := fun s y m d =>
  ⟨append_date 0x41#8 y m d,
    fun h h' => ⟨dayNumber_byte_le y.toNat m.toNat d, doy_eq_dayNumber s.draws h h' ▸ doy_answers y m d s⟩,
    _, doy_answers y m d s⟩

end Sys2Proof.Machine
end

section
/-! PROOFS. The halt flag (spec/44_halt.md): the laws of R200 to R203 for bit 7 of the seconds byte, and the commands
`GETHALT` and `SETHALT`. -/

namespace Sys2Proof.Machine

/-! ### The units -/

theorem haltBit_haltPack {b : Byte} (h : Bool) (hb : b.toNat < 128) : haltBit (haltPack b h) = h := by
  have hclear : b.getLsbD 7 = false := by rw [bit7_eq, decide_eq_false (by omega)]
  rw [haltBit, haltPack_bit7, hclear, Bool.or_false]

theorem haltPack_of_bit7 {b : Byte} (h : Bool) (hb : 128 ≤ b.toNat) : haltPack b h = b := by
  have hset : b.getLsbD 7 = true := by rw [bit7_eq, decide_eq_true hb]
  cases h with
  | false => simp [haltPack_eq]
  | true =>
    have hmask : (0x80 : Byte) = BitVec.twoPow 8 7 := rfl
    rw [haltPack_eq, if_pos rfl, hmask]
    apply BitVec.eq_of_getLsbD_eq
    intro i _
    by_cases hi : 7 = i
    · subst hi; simp [hset]
    · simp [BitVec.getLsbD_twoPow, hi]

theorem haltBit_haltSet (b : Byte) (v : Bool) : haltBit (haltSet b v) = v := by
  cases v with
  | false => exact (BitVec.getLsbD_and ..).trans (Bool.and_false _)
  | true => exact (BitVec.getLsbD_or ..).trans (Bool.or_true _)

theorem secField_haltSet (b : Byte) (v : Bool) : secField (haltSet b v) = secField b := by
  cases v with
  | false => exact BitVec.and_assoc ..
  | true => simp [secField, haltSet, BitVec.and_or_distrib_right]

/-- Settles O41: one lemma for each law of a unit. -/
theorem haltUnitLaws : Obligations.HaltUnitLaws :=
  ⟨fun b => ⟨bit7_eq b, low7_toNat b⟩,
    haltPack_eq,
    fun _ h hs => ⟨haltBit_haltPack h hs, secField_haltPack h hs⟩,
    fun _ h => haltPack_of_bit7 h,
    fun _ _ => rfl,
    fun b v => ⟨haltBit_haltSet b v, secField_haltSet b v⟩⟩

/-! ### The commands -/

/-- Settles O42: the byte is `bitByte` of the cached flag. -/
theorem gethaltAnswersTheCache : Obligations.GethaltAnswersTheCache :=
  ⟨by decide, fun _ => answers_of_respond_byte rfl⟩

variable {s : State} {r : TimeRegs}

theorem busAnswerAt_pushEvent_popAnswer (e : BusEvent) (s : State) :
    busAnswerAt (pushEvent e (popAnswer s)) 0 = busAnswerAt s 1 :=
  busAnswerAt_after s _ 0 rfl rfl

/-- R205: what is left of `SETHALT` after its read, with the byte it writes. -/
theorem exec_sethalt_of_read (a : Byte) (hr : busAnswerAt s 0 = .success r) :
    exec (.sethalt a) s = .next (afterBus
      (memWrite 0 [if a = 0 then r.seconds &&& 0x7F else r.seconds ||| 0x80]
        (pushEvent ⟨.read, s.addr, 0, 1, [r.seconds], .ok⟩ (popAnswer s)))
      fun _ s2 => respond .empty (setHalt (requested a) s2)) := by
  rw [exec, execSethalt, memRead_success hr, afterBus_done, haltSet_requested]
  rfl

theorem exec_sethalt_of_success {r' : TimeRegs} (a : Byte) (hr : busAnswerAt s 0 = .success r)
    (hw : busAnswerAt s 1 = .success r') :
    exec (.sethalt a) s = .next { s with
      halt := decide (a ≠ 0), bus := s.bus.tail.tail, draws := s.draws + 2, responses := s.responses ++ [okEmpty]
      events := s.events ++ [⟨.read, s.addr, 0, 1, [r.seconds], .ok⟩,
        ⟨.write, s.addr, 0, 1, [if a = 0 then r.seconds &&& 0x7F else r.seconds ||| 0x80], .ok⟩] } := by
  rw [exec_sethalt_of_read a hr, memWrite_success ((busAnswerAt_pushEvent_popAnswer _ s).trans hw), afterBus_done,
    requested_eq, respond, encodeResponse_empty]
  simp [setHalt, pushEvent, popAnswer]

theorem exec_sethalt_of_read_failure {e : Byte} (a : Byte) (hr : busAnswerAt s 0 = .failure e) :
    exec (.sethalt a) s =
      .next (afterOne s ⟨.read, s.addr, 0, 1, [], .failed e⟩ (errorWord 0x02 e) (s.draws + 1)) := by
  rw [exec, execSethalt, memRead_failure hr, afterBus_failed]
  rfl

theorem exec_sethalt_of_write_failure {e : Byte} (a : Byte) (hr : busAnswerAt s 0 = .success r)
    (hw : busAnswerAt s 1 = .failure e) :
    exec (.sethalt a) s = .next { s with
      bus := s.bus.tail.tail, draws := s.draws + 2, responses := s.responses ++ [errorWord 0x02 e]
      events := s.events ++ [⟨.read, s.addr, 0, 1, [r.seconds], .ok⟩,
        ⟨.write, s.addr, 0, 1, [if a = 0 then r.seconds &&& 0x7F else r.seconds ||| 0x80], .failed e⟩] } := by
  rw [exec_sethalt_of_read a hr, memWrite_failure ((busAnswerAt_pushEvent_popAnswer _ s).trans hw), afterBus_failed,
    raiseError, respond, encodeResponse_error]
  simp [pushEvent, popAnswer, errorStatus, errorInfo]

/-- Settles O43: the three ways in which `SETHALT` ends when the bus answers it. -/
theorem sethaltReadsModifiesWritesCaches : Obligations.SethaltReadsModifiesWritesCaches := fun _ a =>
  ⟨append_oneByte 0x51#8 a, fun _ _ hr hw => ⟨_, exec_sethalt_of_success a hr hw⟩,
    fun _ hr => ⟨_, exec_sethalt_of_read_failure a hr⟩, fun _ _ hr hw => ⟨_, exec_sethalt_of_write_failure a hr hw⟩⟩

end Sys2Proof.Machine
end

section
/-! PROOFS. The square wave (spec/45_square_wave.md): the control byte that `SQW` writes and `CTLPK` answers, the fields
that `CTLUPK` answers, and the round trips between them. -/

namespace Sys2Proof.Machine

variable {s : State} {a b c rate rs level : Byte}

/-! ### The two commands that pack -/

/-- R222: what is left of `SQW` once its rate is accepted. -/
theorem exec_sqw_of_legal (b : Byte) (s : State) (ha : legalRate a = true) :
    exec (.sqw a b) s =
      .next (spendDraws 0 (afterBus (memWrite 7 [ctrlPack a b] s) fun _ s1 => respond .empty s1)) :=
  congrArg Host.Outcome.next (if_pos ha)

theorem exec_sqw_of_success {r : TimeRegs} (b : Byte) (ha : legalRate a = true) (hb : busAnswerAt s 0 = .success r) :
    exec (.sqw a b) s =
      .next (afterOne s ⟨.write, s.addr, 7, 1, [ctrlPack a b], .ok⟩ okEmpty (s.draws + 1)) :=
  (exec_sqw_of_legal b s ha).trans (congrArg Host.Outcome.next (write_success 7 [ctrlPack a b] 0 hb))

theorem exec_sqw_of_failure {e : Byte} (b : Byte) (ha : legalRate a = true) (hb : busAnswerAt s 0 = .failure e) :
    exec (.sqw a b) s =
      .next (afterOne s ⟨.write, s.addr, 7, 1, [ctrlPack a b], .failed e⟩ (errorWord 0x02 e) (s.draws + 1)) :=
  (exec_sqw_of_legal b s ha).trans (congrArg Host.Outcome.next (write_failure 7 [ctrlPack a b] 0 hb))

/-- R261: no bus answer is taken, and none is assumed. -/
theorem exec_sqw_of_illegal (b : Byte) (s : State) (ha : ¬ legalRate a = true) :
    exec (.sqw a b) s = .next { s with responses := s.responses ++ [errorWord 0x01 0x02] } :=
  congrArg Host.Outcome.next (if_neg ha)

theorem ctlpk_answers (b : Byte) (s : State) (ha : legalRate a = true) :
    Answers (.ctlpk a b) s (okByte (ctrlPack a b)) :=
  answers_of_respond_byte (congrArg Host.Outcome.next (if_pos ha))

theorem ctlpk_rejects (b : Byte) (s : State) (ha : ¬ legalRate a = true) :
    Answers (.ctlpk a b) s (errorWord 0x01 0x02) :=
  ⟨s.draws, congrArg Host.Outcome.next (if_neg ha)⟩

/-- R221: the rates of the table of R220 are the legal ones. -/
theorem not_legalRate_of_table (ha : ∀ row ∈ controlTable, a ≠ row.1) : ¬ legalRate a = true := by
  rw [legalRate_iff_table]
  rintro ⟨row, hrow, h⟩
  exact ha row hrow h

theorem legalRate_of_table {row : Byte × Byte × Byte} (hrow : row ∈ controlTable) (ha : a = row.1) :
    legalRate a = true :=
  (legalRate_iff_table a).2 ⟨row, hrow, ha⟩

/-- Settles O44: `SQW` with a legal rate is one write of the packed byte, which the table gives. -/
theorem sqwValidatesPacksWrites : Obligations.SqwValidatesPacksWrites := by
  refine fun s a b => ⟨append_twoBytes 0x60#8 a b, fun row hrow ha => ?_,
    fun ha => exec_sqw_of_illegal b s (not_legalRate_of_table ha)⟩
  have hlegal := legalRate_of_table hrow ha
  rw [← ctrlPack_table b hrow ha]
  exact ⟨fun r hb => ⟨_, exec_sqw_of_success b hlegal hb⟩, fun e hb => ⟨_, exec_sqw_of_failure b hlegal hb⟩⟩

/-- Settles O45: the answer of a legal rate is the packed byte, which the table gives. -/
theorem ctlpkValidatesAndPacks : Obligations.CtlpkValidatesAndPacks := fun s a b =>
  ⟨append_twoBytes 0x61#8 a b,
    fun _ hrow ha => ctrlPack_table b hrow ha ▸ ctlpk_answers b s (legalRate_of_table hrow ha),
    fun ha => ctlpk_rejects b s (not_legalRate_of_table ha)⟩

/-! ### `CTLPK` predicts `SQW` -/

theorem Answers.unique {i : Instr} {w w' : Word} (h : Answers i s w) (h' : Answers i s w') : w = w' := by
  obtain ⟨n, hn⟩ := h
  obtain ⟨n', hn'⟩ := h'
  injection hn.symm.trans hn' with hstate
  exact List.singleton_inj.1 (List.append_cancel_left (congrArg State.responses hstate))

theorem wordStatus_okByte (v : Byte) : wordStatus (okByte v) = 0x00 := (cut_byte 0x00 v).1

theorem wordInfo_okByte (v : Byte) : wordInfo (okByte v) = v := (cut_byte 0x00 v).2.1

theorem okByte_inj (h : okByte a = okByte b) : a = b := by
  rw [← wordInfo_okByte a, h, wordInfo_okByte]

theorem okByte_ne_errorWord {status : Byte} (v info : Byte) (h : status ≠ 0x00) : okByte v ≠ errorWord status info := by
  intro heq
  rw [← wordStatus_errorWord status info, ← heq, wordStatus_okByte] at h
  exact h rfl

/-- R223: the only `OK` answer of `CTLPK`. -/
theorem ctlpk_answers_okByte_iff : Answers (.ctlpk a b) s (okByte c) ↔ legalRate a = true ∧ ctrlPack a b = c := by
  constructor
  · intro h
    by_cases ha : legalRate a = true
    · exact ⟨ha, okByte_inj ((ctlpk_answers b s ha).unique h)⟩
    · exact absurd (h.unique (ctlpk_rejects b s ha)) (okByte_ne_errorWord _ _ (by decide))
  · rintro ⟨ha, rfl⟩
    exact ctlpk_answers b s ha

/-- R222: the only byte that `SQW` writes. -/
theorem sqw_writes_iff {r : TimeRegs} (hb : busAnswerAt s 0 = .success r) :
    (∃ n, exec (.sqw a b) s = .next (afterOne s ⟨.write, s.addr, 7, 1, [c], .ok⟩ okEmpty n)) ↔
      legalRate a = true ∧ ctrlPack a b = c := by
  constructor
  · rintro ⟨n, h⟩
    by_cases ha : legalRate a = true
    · rw [exec_sqw_of_success b ha hb] at h
      obtain ⟨hc, -⟩ : ctrlPack a b = c ∧ s.draws + 1 = n := by simpa [afterOne] using h
      exact ⟨ha, hc⟩
    · rw [exec_sqw_of_illegal b s ha] at h
      simp [afterOne] at h
  · rintro ⟨ha, rfl⟩
    exact ⟨_, exec_sqw_of_success b ha hb⟩

/-- Settles O46: both sides say that the rate is legal and that the packed byte is `c`. -/
theorem ctlpkPredictsSqw : Obligations.CtlpkPredictsSqw := fun _ _ _ _ _ _ hb =>
  ctlpk_answers_okByte_iff.trans (sqw_writes_iff hb).symm

/-! ### Unpacking -/

theorem ctlupk_answers (a : Byte) (s : State) :
    Answers (.ctlupk a) s
      (okControl (ctrlUnpack a).level (ctrlUnpack a).enable (ctrlUnpack a).rs (ctrlUnpack a).rate) :=
  ⟨s.draws, rfl⟩

theorem bitByte_decide (p : Prop) [Decidable p] : bitByte (decide p) = if p then 1 else 0 := by
  simp [bitByte]

/-- A bit of a byte is a binary digit of its number. -/
theorem getLsbD_eq_decide (b : Byte) (i : Nat) : b.getLsbD i = decide (b.toNat / 2 ^ i % 2 = 1) :=
  Nat.testBit_eq_decide_div_mod_eq

theorem bitByte_getLsbD (b : Byte) (i : Nat) : bitByte (b.getLsbD i) = .ofNat 8 (b.toNat / 2 ^ i % 2) := by
  rw [getLsbD_eq_decide, bitByte_decide]
  rcases Nat.mod_two_eq_zero_or_one (b.toNat / 2 ^ i) with h | h <;> rw [h] <;> rfl

theorem ctrlUnpack_level (b : Byte) : (ctrlUnpack b).level = .ofNat 8 (b.toNat / 128) := by
  have := b.isLt
  have hdigit : b.toNat / 2 ^ 7 % 2 = b.toNat / 128 := by omega
  exact hdigit ▸ bitByte_getLsbD b 7

theorem ctrlUnpack_enable (b : Byte) : (ctrlUnpack b).enable = .ofNat 8 (b.toNat / 16 % 2) :=
  bitByte_getLsbD b 4

theorem low2_toNat (b : Byte) : (b.extractLsb' 0 2).toNat = b.toNat % 4 := by
  simp

theorem ctrlUnpack_rs (b : Byte) : (ctrlUnpack b).rs = .ofNat 8 (b.toNat % 4) := by
  rw [← low2_toNat, BitVec.ofNat_toNat, ctrlUnpack]

theorem ctrlUnpack_rate_of_disabled (h : b.getLsbD 4 = false) : (ctrlUnpack b).rate = 0 :=
  if_neg (ne_true_of_eq_false h)

theorem ctrlUnpack_rate_of_enabled (h : b.getLsbD 4 = true) :
    (ctrlUnpack b).rate = rateOfSelect (b.extractLsb' 0 2) :=
  if_pos h

/-- R224: the rate of an enabled configuration, by the number in bits 1 to 0. -/
theorem rateOfSelect_low2 (b : Byte) :
    (b.toNat % 4 = 0 → rateOfSelect (b.extractLsb' 0 2) = 1) ∧
      (b.toNat % 4 = 1 → rateOfSelect (b.extractLsb' 0 2) = 4) ∧
      (b.toNat % 4 = 2 → rateOfSelect (b.extractLsb' 0 2) = 8) ∧
      (b.toNat % 4 = 3 → rateOfSelect (b.extractLsb' 0 2) = 32) := by
  rw [← low2_toNat]
  generalize b.extractLsb' 0 2 = x
  revert x; decide

/-- Settles O47: the fields of `ctrlUnpack`, each as digits of the byte's number. -/
theorem ctlupkUnpacks : Obligations.CtlupkUnpacks := by
  refine fun s a => ⟨append_oneByte 0x62#8 a, (ctrlUnpack a).rate, fun h => ?_, fun h => ?_, ?_⟩
  · exact ctrlUnpack_rate_of_disabled ((getLsbD_eq_decide a 4).trans (decide_eq_false (by omega)))
  · rw [ctrlUnpack_rate_of_enabled ((getLsbD_eq_decide a 4).trans (decide_eq_true h))]
    exact rateOfSelect_low2 a
  · rw [← ctrlUnpack_level, ← ctrlUnpack_enable, ← ctrlUnpack_rs]
    exact ctlupk_answers a s

/-! ### Unpacking a packed byte -/

/-- R221: the legal rates with the number that the rate-select bits hold for each. -/
def rateSelects : List (Byte × Byte) := [(0, 0), (1, 0), (4, 1), (8, 2), (32, 3)]

theorem exists_rateSelect (h : legalRate rate = true) : ∃ rs, (rate, rs) ∈ rateSelects := by
  have hmap : rate ∈ rateSelects.map Prod.fst := (legalRate_iff rate).1 h
  obtain ⟨⟨_, rs⟩, hmem, rfl⟩ := List.mem_map.1 hmap
  exact ⟨rs, hmem⟩

theorem legalRate_of_rateSelect (h : (rate, rs) ∈ rateSelects) : legalRate rate = true := by
  rw [legalRate_iff]
  exact List.mem_map_of_mem (f := Prod.fst) h

theorem requested_bitByte (v : Bool) : requested (bitByte v) = v := by
  cases v <;> rfl

theorem bitByte_requested (a : Byte) : bitByte (requested a) = if a = 0 then 0 else 1 := by
  rw [requested_eq, bitByte_decide, ite_not]

/-- D20: only whether a level was asked for is packed. -/
theorem ctrlPack_bitByte_requested (rate level : Byte) :
    ctrlPack rate (bitByte (requested level)) = ctrlPack rate level := by
  rw [ctrlPack, requested_bitByte, ctrlPack]

/-- R226 (a): ten cases, of a rate and whether a level was asked for. -/
theorem ctrlUnpack_ctrlPack (level : Byte) (h : (rate, rs) ∈ rateSelects) :
    ctrlUnpack (ctrlPack rate level) = ⟨bitByte (requested level), bitByte (requested rate), rs, rate⟩ := by
  rw [← ctrlPack_bitByte_requested]
  simp only [rateSelects, List.mem_cons, Prod.mk.injEq, List.not_mem_nil, or_false] at h
  rcases h with ⟨rfl, rfl⟩ | ⟨rfl, rfl⟩ | ⟨rfl, rfl⟩ | ⟨rfl, rfl⟩ | ⟨rfl, rfl⟩
  all_goals cases requested level <;> rfl

theorem bitByte_requested_of_le_one (h : level.toNat ≤ 1) : bitByte (requested level) = level := by
  rw [bitByte_requested]
  split
  · exact Eq.symm ‹_›
  · bv_omega

/-- R226 (c): the settings are what the unpacker makes of the byte. -/
theorem ctrlPack_inj {rate' level' : Byte} (h : legalRate rate = true) (h' : legalRate rate' = true)
    (hl : level.toNat ≤ 1) (hl' : level'.toNat ≤ 1) (heq : ctrlPack rate level = ctrlPack rate' level') :
    rate = rate' ∧ level = level' := by
  obtain ⟨rs, hrs⟩ := exists_rateSelect h
  obtain ⟨rs', hrs'⟩ := exists_rateSelect h'
  have hunpack := congrArg ctrlUnpack heq
  rw [ctrlUnpack_ctrlPack level hrs, ctrlUnpack_ctrlPack level' hrs', bitByte_requested_of_le_one hl,
    bitByte_requested_of_le_one hl'] at hunpack
  exact ⟨congrArg Control.rate hunpack, congrArg Control.level hunpack⟩

/-! ### Packing an unpacked byte -/

theorem ctrlPack_zero (level : Byte) : ctrlPack 0 level = bitByte (requested level) <<< 7 := by
  rw [← ctrlPack_bitByte_requested]
  cases requested level <;> rfl

/-- R220, R221: the byte of an enabled configuration, field by field. -/
theorem ctrlPack_rateOfSelect (x : BitVec 2) (level : Byte) :
    ctrlPack (rateOfSelect x) level = bitByte (requested level) <<< 7 ||| 0x10 ||| x.setWidth 8 := by
  rw [← ctrlPack_bitByte_requested]
  generalize requested level = v
  revert x v; decide

theorem legalRate_rateOfSelect (x : BitVec 2) : legalRate (rateOfSelect x) = true := by
  revert x; decide

theorem and_bit (b : Byte) (i : Nat) : b &&& BitVec.twoPow 8 i = bitByte (b.getLsbD i) <<< i := by
  rw [BitVec.and_twoPow]
  cases b.getLsbD i
  · exact (BitVec.zero_shiftLeft i).symm
  · rfl

theorem and_low2 (b : Byte) : b &&& 0x03 = (b.extractLsb' 0 2).setWidth 8 := by
  apply BitVec.eq_of_toNat_eq
  rw [BitVec.toNat_and, BitVec.toNat_setWidth_of_le (by decide), low2_toNat]
  exact Nat.and_two_pow_sub_one_eq_mod b.toNat 2

/-- The named bits of the control byte (R220), as the fields that the packer ORs together. -/
theorem and_namedBits (b : Byte) :
    b &&& (0x93 : Byte) =
      bitByte (b.getLsbD 7) <<< 7 ||| bitByte (b.getLsbD 4) <<< 4 ||| (b.extractLsb' 0 2).setWidth 8 := by
  have hmask : (0x93 : Byte) = BitVec.twoPow 8 7 ||| BitVec.twoPow 8 4 ||| 0x03 := rfl
  rw [hmask, BitVec.and_or_distrib_left, BitVec.and_or_distrib_left, and_bit, and_bit, and_low2]

theorem requested_ctrlUnpack_level (b : Byte) : requested (ctrlUnpack b).level = b.getLsbD 7 :=
  requested_bitByte _

/-- R226 (b), of an enabled configuration. -/
theorem ctrlPack_ctrlUnpack_of_enabled (h : b.getLsbD 4 = true) :
    ctrlPack (ctrlUnpack b).rate (ctrlUnpack b).level = b &&& 0x93 := by
  rw [ctrlUnpack_rate_of_enabled h, ctrlPack_rateOfSelect, requested_ctrlUnpack_level, and_namedBits, h]
  rfl

/-- R226 (b), of a disabled configuration. -/
theorem ctrlPack_ctrlUnpack_of_disabled (h : b.getLsbD 4 = false) :
    ctrlPack (ctrlUnpack b).rate (ctrlUnpack b).level = b &&& 0x80 := by
  rw [ctrlUnpack_rate_of_disabled h, ctrlPack_zero, requested_ctrlUnpack_level]
  exact (and_bit b 7).symm

theorem legalRate_ctrlUnpack (b : Byte) : legalRate (ctrlUnpack b).rate = true := by
  cases h : b.getLsbD 4 with
  | false => rw [ctrlUnpack_rate_of_disabled h]; rfl
  | true => rw [ctrlUnpack_rate_of_enabled h]; exact legalRate_rateOfSelect _

/-- R226 (b): the enable field tells which bits come back. -/
theorem ctrlPack_ctrlUnpack (b : Byte) :
    ((ctrlUnpack b).enable = 1 ∧ ctrlPack (ctrlUnpack b).rate (ctrlUnpack b).level = b &&& 0x93) ∨
      ((ctrlUnpack b).enable = 0 ∧ ctrlPack (ctrlUnpack b).rate (ctrlUnpack b).level = b &&& 0x80) := by
  cases h : b.getLsbD 4 with
  | false => exact .inr ⟨congrArg bitByte h, ctrlPack_ctrlUnpack_of_disabled h⟩
  | true => exact .inl ⟨congrArg bitByte h, ctrlPack_ctrlUnpack_of_enabled h⟩

/-- Settles O48: the laws of the packer and the unpacker, through the answers of their commands. -/
theorem controlByteRoundTrip : Obligations.ControlByteRoundTrip := by
  refine ⟨fun s s' rate level rs h => ?_, fun s s' b => ?_, fun s rate level rate' level' c hl hl' h h' => ?_⟩
  · refine ⟨_, ctlpk_answers level s (legalRate_of_rateSelect h), ?_⟩
    have hunpack := ctlupk_answers (ctrlPack rate level) s'
    rw [ctrlUnpack_ctrlPack level h, bitByte_requested, bitByte_requested] at hunpack
    exact hunpack
  · have hpack := ctlpk_answers (ctrlUnpack b).level s' (legalRate_ctrlUnpack b)
    refine ⟨_, _, _, _, ctlupk_answers b s, ?_⟩
    rcases ctrlPack_ctrlUnpack b with ⟨henable, hbits⟩ | ⟨henable, hbits⟩
    · exact ⟨fun _ => hbits ▸ hpack, fun h => absurd (henable.symm.trans h) (by decide), .inr henable⟩
    · exact ⟨fun h => absurd (henable.symm.trans h) (by decide), fun _ => hbits ▸ hpack, .inl henable⟩
  · obtain ⟨ha, hc⟩ := ctlpk_answers_okByte_iff.1 h
    obtain ⟨ha', hc'⟩ := ctlpk_answers_okByte_iff.1 h'
    exact ctrlPack_inj ha ha' hl hl' (hc.trans hc'.symm)

end Sys2Proof.Machine
end

section
/-! PROOFS. Errors and idle steps (spec/60_exceptions.md R251, R252, R260, R264, R268): the ends of a command that
answer an error write no register of the codec, and without a command to take a step is the identity. -/

namespace Sys2Proof.Machine

/-- R264: of the effects that respond, the ones that write `WS` or `HALT` all answer `OK`; the two that set the
waiting flag do not respond (R311). -/
theorem Effect.codec_eq_of_error {i : Instr} {s t : State} {w : Word} (h : Effect i s t)
    (hr : t.responses = s.responses ++ [w]) (hw : wordStatus w ≠ 0x00) :
    t.ws = s.ws ∧ t.halt = s.halt ∧ t.addr = s.addr ∧ t.blocked = s.blocked := by
  cases h with
  | answers | invalid | fails | haltFails => exact ⟨rfl, rfl, rfl, rfl⟩
  | setsWs | haltSets =>
    cases List.append_cancel_left hr
    exact absurd (by decide) hw
  | transfers r e v x n hb hi he ho hh hx =>
    cases List.append_cancel_left hr
    exact absurd hx.1 hw
  | waits | haltWaits => simp at hr

/-- Settles O17: every command has one of the effects of `Effect`. -/
theorem errorsLeaveCodecStateAlone : Obligations.ErrorsLeaveCodecStateAlone :=
  fun _ _ _ _ h hr hw => (effect_of_exec h).codec_eq_of_error hr hw

/-- R268: a codec without a word to take is idle. -/
theorem step_of_commands_nil {s : State} (h : s.commands = []) : step s = .next s := by
  have ht : takeCommand s = none := (takeCommand_none_iff s).2 (.inr h)
  simp only [step, ht]

/-- Settles O11: the two ways in which `takeCommand` gives nothing. -/
theorem stepWithoutACommandChangesNothing : Obligations.StepWithoutACommandChangesNothing :=
  fun _ h => h.elim step_of_commands_nil step_of_blocked

end Sys2Proof.Machine
end

section
/-! PROOFS. Construction and the device address (spec/70_reset_and_hazards.md R290 to R294): what a construction puts
into the registers and the records, and that `ADDR` is the same after every step. -/

namespace Sys2Proof.Machine

/-! ### Construction -/

section
variable (ws : BitVec 3) (halt : Bool) (addr : BitVec 7)

@[simp] theorem resetWith_ws : (State.resetWith ws halt addr).ws = ws := rfl
@[simp] theorem resetWith_halt : (State.resetWith ws halt addr).halt = halt := rfl
@[simp] theorem resetWith_addr : (State.resetWith ws halt addr).addr = addr := rfl
@[simp] theorem resetWith_blocked : (State.resetWith ws halt addr).blocked = false := rfl
@[simp] theorem resetWith_responses : (State.resetWith ws halt addr).responses = [] := rfl
@[simp] theorem resetWith_events : (State.resetWith ws halt addr).events = [] := rfl

/-- With empty records, of the invariant only the range of `WS` is left. -/
theorem inv_resetWith_iff : (State.resetWith ws halt addr).Inv ↔ ws.toNat ≤ 6 := by
  simp [State.Inv]

end

theorem reset_eq_resetWith : State.reset = State.resetWith Config.wsReset Config.haltReset 0x68 := rfl

theorem wsReset_le : Config.wsReset.toNat ≤ 6 := by decide

/-- Settles O14: this build's `WS_RESET` is in the range that `inv_resetWith_iff` asks for. -/
theorem resetMeetsTheInvariant : Obligations.ResetMeetsTheInvariant :=
  ⟨fun ws halt addr => (inv_resetWith_iff ws halt addr).2, (inv_resetWith_iff _ _ _).2 wsReset_le⟩

/-- Settles O16: the fields of `State.resetWith`, and the word presented is the one taken. -/
theorem constructionTouchesNothing : Obligations.ConstructionTouchesNothing := by
  refine ⟨fun ws halt addr => ?_, Config.wsReset, Config.haltReset, wsReset_le, reset_eq_resetWith⟩
  exact ⟨resetWith_ws .., resetWith_halt .., resetWith_events .., resetWith_responses .., resetWith_blocked ..,
    fun w => ⟨_, takeCommand_presentCommand _ w⟩⟩

/-! ### The address -/

/-- R23: no command and no illegal word writes `ADDR`. -/
theorem step_addr_eq {s t : State} (ht : step s = .next t) : t.addr = s.addr := by
  rcases step_effect s with ⟨-, h⟩ | ⟨w, rest, -, -, ⟨-, -, h⟩ | ⟨i, u, -, h, hE⟩⟩ <;>
    cases h.symm.trans ht
  · rfl
  · rfl
  · exact hE.addr_eq

/-- Settles O15: the argument, this build's default, and `step_addr_eq`. -/
theorem addressIsFixedAtConstruction : Obligations.AddressIsFixedAtConstruction :=
  ⟨resetWith_addr, reset_eq_resetWith ▸ resetWith_addr .., fun _ _ => step_addr_eq⟩

end Sys2Proof.Machine
end
